-- ==== Sys2Proof/Word.lean ====
section
/-!
DEFINITION. The words of the DPCM-dist core: the two width parameters of rule R7 that the words are built
from (`FLT` and `SEL_BITS`; the others stand in Config.lean), the floating-point pattern, the command and
response words, the selector, a byte, and the three-valued window entry.
-/

namespace Sys2Proof

/-- An IEEE 754 binary interchange format: the widths of the exponent and of the fraction. -/
structure FloatFormat where
  expBits : Nat
  fracBits : Nat
  deriving DecidableEq, Repr

/-- The width of a pattern: sign, exponent, fraction (rule R45). -/
abbrev FloatFormat.width (f : FloatFormat) : Nat := 1 + f.expBits + f.fracBits

/-- `FLT`: binary32 (decision D1). -/
abbrev Config.FLT : FloatFormat := { expBits := 8, fracBits := 23 }

/-- `SEL_BITS`: the width of the selector field (decision D8). -/
abbrev Config.SEL_BITS : Nat := 8

/-- A bit pattern of the format `FLT` (rule R45): samples, parameter cells, `SRATE`, `CLK` and every transient
floating-point value. In binary32 bit 31 is the sign, bits 30:23 the biased exponent, bits 22:0 the fraction. -/
abbrev F := BitVec Config.FLT.width

/-- The opcode field `op` (rule R50). -/
abbrev Op := BitVec 8

/-- The selector field `sel` (rule R50). -/
abbrev Sel := BitVec Config.SEL_BITS

/-- The width of a command word: `op`, `sel` and `data` (rule R50), 48 bits. -/
abbrev commandBits : Nat := 8 + Config.SEL_BITS + Config.FLT.width

/-- A command word (rule R50). -/
abbrev Command := BitVec commandBits

/-- A response word holds one floating-point pattern or zero (rule R51), 32 bits. -/
abbrev Response := BitVec Config.FLT.width

/-- One byte of a command laid out in bytes (rule R36). -/
abbrev Byte := BitVec 8

/-- A window-buffer entry: one of the three values 0, +1, -1 (rules R12, R49). The fourth 2-bit code
has no meaning and so has no constructor. -/
inductive Delta where
  | zero
  | up
  | down
  deriving DecidableEq, Repr, Inhabited

end Sys2Proof
end

