-- ==== Sys2Proof/Config.lean ====
section
/-!
DEFINITION. The implementation parameters of rule R7 and the free values: what the spec leaves open
stands here as a constant with no body, so that no proof can see its value.
-/

namespace Sys2Proof

namespace Config

/-! ### Values fixed by the source or decided by the spec (rules R7, R48). `FLT` and `SEL_BITS`, from which
the types of the words are built, stand in Word.lean. -/

/-- The pattern of a natural number with at most `fracBits + 1` significant bits, positive and exact: the hidden
bit is the leading one, and the bias is `2 ^ (expBits - 1) - 1` (rule R45). The constants of rule R48 are
such numbers. -/
def floatOfNat (n : Nat) : F :=
  if n = 0 then 0
  else BitVec.ofNat FLT.width
    ((n.log2 + 2 ^ (FLT.expBits - 1) - 2) * 2 ^ FLT.fracBits + n * 2 ^ FLT.fracBits / 2 ^ n.log2)

/-- `NCH`: the number of channel contexts (decision D13). -/
abbrev NCH : Nat := 2

/-- `QLEN`: the capacity of each window buffer. -/
abbrev QLEN : Nat := 32

/-- `F_EMU` = 33144.0, the emulated hardware sample clock. -/
def F_EMU : F := floatOfNat 33144

/-- `AMP_SCALE` = 4.0. -/
def AMP_SCALE : F := floatOfNat 4

/-- `DEPTH_SCALE` = 255.0. -/
def DEPTH_SCALE : F := floatOfNat 255

/-- `WIN_STEPS` = 32.0. -/
def WIN_STEPS : F := floatOfNat 32

/-- `WIN_STEPS` as a number: the quantised window length is at most 32. -/
def WIN_MAX : Nat := 32

/-- `FALLBACK_W` = 8. -/
def FALLBACK_W : Int := 8

/-- `GATE` = 16. -/
def GATE : Nat := 16

/-- `IDENT_COPY_LEN`: entries copied by an identity commit (decision D18; the other reading is 8). -/
def IDENT_COPY_LEN : Nat := 32

/-- `STALE_MAX`: for how many `SAMPLE` operations a completed write may stay unseen (decision D16). -/
def STALE_MAX : Nat := 0

/-- 1.0, the clock threshold and decrement (rule R48). -/
def ONE : F := floatOfNat 1

/-- +0.0 (rule R48). -/
def ZERO : F := floatOfNat 0

/-! ### Free values: no body, so nothing can evaluate them -/

/-- The draw behind `P_RESET[i]` (rule R27, decision D15: OPEN). DESIGN CHOICE: `resetParam` maps a
draw onto the legal values of the slot. Log 3. -/
opaque pResetDraw : Nat → F

/-- The draw behind `SRATE_RESET` (rule R27, decision D15: OPEN). Log 3. -/
opaque srateResetDraw : F

/-- Sign and payload of the n-th NaN result (rule R46: "a draw among all quiet NaNs"). Log 7. -/
opaque freeNaN : Nat → BitVec FLT.fracBits

/-- Which of the values a cell has held during a `SAMPLE` its read returns: the draw number and the
cell (0..3 for `P[i]`, 4 for `SRATE`), rule R40. Log 5. -/
opaque freePick : Nat → Nat → Nat

/-- Which port is served first when both hold a command and no order is given (rule R39 (d)). Log 16. -/
opaque freePort : Nat → Bool

/-- `floor_i` of a value that is not finite: rule R47 applies `floor_i` only to finite values, so this
is read only in states no run reaches. Log 13. -/
opaque freeFloor : F → Int

/-- A window entry beyond index 31: rule R37 shows that no reachable state asks for one. Log 13. -/
opaque freeEntry : Int → Delta

/-- The cursor after 31 when the modulus is above 32: no reachable state asks for it (R24 (a)). Log 13. -/
opaque freeCursor : Nat → Fin QLEN

end Config
end Sys2Proof
end

