-- ==== Sys2Proof/Machine/Float.lean ====
section
/-!
DEFINITION. IEEE 754 arithmetic on bit patterns (rules R45 to R48): exact values as integer multiples
of the smallest subnormal, one rounding per operation, NaN results supplied by the caller.
-/

namespace Sys2Proof.Machine

/-! ### The format (rule R45) -/

/-- The weight of the hidden bit, 2^23: encodings below it (sign removed) are zero and the subnormals. -/
def hid : Nat := 2 ^ Config.FLT.fracBits

/-- The exponent field of infinities and NaNs, 255. -/
def expTop : Nat := 2 ^ Config.FLT.expBits - 1

/-- The encoding of +infinity, 0x7F800000: finite magnitudes lie below it and NaNs above it. -/
def infEnc : Nat := expTop * hid

/-- The weight of the sign bit, 2^31. -/
def signBit : Nat := 2 ^ (Config.FLT.expBits + Config.FLT.fracBits)

/-- How many units make 1.0. The unit is the smallest subnormal, 2^-149, so every finite value is a
whole number of units and `unit` = 2^149. -/
def unit : Nat := 2 ^ (2 ^ (Config.FLT.expBits - 1) - 1 + Config.FLT.fracBits - 1)

/-- The sign bit. -/
def fNeg (a : F) : Bool := decide (signBit ≤ a.toNat)

/-- The pattern with the sign bit removed. -/
def fEnc (a : F) : Nat := a.toNat % signBit

/-- Exponent 255 with a non-zero fraction (rule R45). -/
def fIsNaN (a : F) : Bool := decide (infEnc < fEnc a)

/-- Exponent 255 with fraction 0 (rule R45). -/
def fIsInf (a : F) : Bool := decide (fEnc a = infEnc)

/-- Neither an infinity nor a NaN. -/
def fIsFinite (a : F) : Bool := decide (fEnc a < infEnc)

/-- The magnitude, in units, that an encoding stands for: exponent field 0 gives the fraction itself,
any other exponent e gives (2^23 + fraction) * 2^(e-1). On `infEnc` it gives 2^277 units (2^128), which is
above every finite magnitude. -/
def encMag (e : Nat) : Nat :=
  if e / hid = 0 then e % hid else (hid + e % hid) * 2 ^ (e / hid - 1)

/-- The magnitude of a pattern in units. -/
def fMag (a : F) : Nat := encMag (fEnc a)

/-- The value in units, with its sign. Both zeros give 0; an infinity gives ±2^277. -/
def fVal (a : F) : Int := if fNeg a then -(fMag a : Int) else (fMag a : Int)

/-- The pattern with the given sign and encoding. -/
def fPack (neg : Bool) (enc : Nat) : F := BitVec.ofNat Config.FLT.width ((if neg then signBit else 0) + enc)

/-- The pattern with its sign turned. -/
def fFlip (a : F) : F := fPack (!fNeg a) (fEnc a)

/-! ### Rounding (rule R46: nearest, ties to even, overflow to infinity) -/

/-- The exponent step at which `num / den` units is rounded: 0 for magnitudes below 2^24 units, and one
more for each doubling. -/
def roundScale (num den : Nat) : Nat := Nat.log2 (num / den) - Config.FLT.fracBits

/-- The encoding nearest to the magnitude `num / den` units, a tie going to the even fraction. The
encoding of a magnitude n * 2^s with n up to 2^24 is s * 2^23 + n, so a carry out of the fraction moves
to the next exponent by itself. -/
def roundEnc (num den : Nat) : Nat :=
  let s := roundScale num den
  let d := den * 2 ^ s
  let n := num / d
  let r := num % d
  let up := if 2 * r > d ∨ (2 * r = d ∧ n % 2 = 1) then 1 else 0
  min (s * hid + n + up) infEnc

/-- The rounded value with a given sign. -/
def roundPack (neg : Bool) (num den : Nat) : F := fPack neg (roundEnc num den)

/-- A quiet NaN with the sign and payload of draw `k` (rule R46, decision D2): the draw's top bit is the sign,
its other bits are the fraction below the quiet bit `hid / 2`. -/
def quietNaN (k : Nat) : F :=
  let p := (Config.freeNaN k).toNat
  fPack (decide (hid ≤ 2 * p)) (infEnc + hid / 2 + p % (hid / 2))

/-- A quiet NaN: exponent 255 and the top fraction bit set. -/
def fIsQuietNaN (a : F) : Bool := decide (infEnc + hid / 2 ≤ fEnc a)

/-! ### The four operations (rule R46). The argument `q` is the NaN delivered if the result is a NaN. -/

/-- `fadd`. The exact sum is rounded once; a zero sum is -0.0 only when both operands are -0.0 or both
zeros are negative, else +0.0 (round to nearest). -/
def fadd (q a b : F) : F :=
  if fIsNaN a || fIsNaN b then q
  else if fIsInf a && fIsInf b then (if fNeg a = fNeg b then a else q)
  else if fIsInf a then a
  else if fIsInf b then b
  else
    let z := fVal a + fVal b
    if z = 0 then fPack (fNeg a && fNeg b) 0 else roundPack (decide (z < 0)) z.natAbs 1

/-- `fsub a b` is `fadd a (-b)`. -/
def fsub (q a b : F) : F := if fIsNaN a || fIsNaN b then q else fadd q a (fFlip b)

/-- `fmul`. -/
def fmul (q a b : F) : F :=
  let neg := xor (fNeg a) (fNeg b)
  if fIsNaN a || fIsNaN b then q
  else if fIsInf a || fIsInf b then (if fMag a = 0 ∨ fMag b = 0 then q else fPack neg infEnc)
  else roundPack neg (fMag a * fMag b) unit

/-- `fdiv`. -/
def fdiv (q a b : F) : F :=
  let neg := xor (fNeg a) (fNeg b)
  if fIsNaN a || fIsNaN b then q
  else if fIsInf a then (if fIsInf b then q else fPack neg infEnc)
  else if fIsInf b then fPack neg 0
  else if fMag b = 0 then (if fMag a = 0 then q else fPack neg infEnc)
  else roundPack neg (fMag a * unit) (fMag b)

/-- `flt`: false when either is a NaN, else numerically less than (rule R46). -/
def flt (a b : F) : Bool := !fIsNaN a && !fIsNaN b && decide (fVal a < fVal b)

/-! ### Conversions (rule R47) -/

/-- `clamp` on integers (rule R8). -/
def clampInt (v lo hi : Int) : Int := if v < lo then lo else if v > hi then hi else v

/-- `i2f`: the binary32 value of an integer. -/
def i2f (n : Int) : F := roundPack (decide (n < 0)) (n.natAbs * unit) 1

/-- `f2i_trunc`: truncation toward zero, saturated to 32 bits; a NaN gives 0 (decision D4). -/
def f2iTrunc (a : F) : Int :=
  if fIsNaN a then 0
  else clampInt (if fNeg a then -((fMag a / unit : Nat) : Int) else ((fMag a / unit : Nat) : Int))
    (-2147483648) 2147483647

/-- `floor_i`: the greatest integer not above a finite value; the rule gives none for others. -/
def floorInt (a : F) : Int := if fIsFinite a then fVal a / (unit : Int) else Config.freeFloor a

/-- The integer nearest a value, a tie going away from zero (decision D5). -/
def nearestInt (a : F) : Int :=
  let n : Int := ((2 * fMag a + unit) / (2 * unit) : Nat)
  if fNeg a then -n else n

/-- `round_haz`: the nearest integer as a binary32 value. DEDUCED: the integer 0 is returned as +0.0,
also for -0.0. Log 14. -/
def roundHaz (a : F) : F := i2f (nearestInt a)

/-! ### The domains of the operands (rules R20, R21, R88, R92) -/

/-- A binary32 value in [0,1]; -0.0 compares equal to 0 and is inside (rule R88). -/
def inUnit (a : F) : Bool := !fIsNaN a && decide (0 ≤ fVal a) && decide (fVal a ≤ (unit : Int))

/-- The stored value `k/32` (rule R86). The division is exact, so no NaN is ever drawn. -/
def windowStep (k : Nat) : F := fdiv Config.ZERO (i2f k) Config.WIN_STEPS

/-- One of the 33 legal contents of `P[2]` (rule R20). -/
def isWindowStep (a : F) : Bool := (List.range (Config.WIN_MAX + 1)).any fun k => a == windowStep k

/-- A finite value greater than 0 (rule R92). -/
def legalRate (a : F) : Bool := fIsFinite a && decide (0 < fVal a)

end Sys2Proof.Machine
end

