-- ==== Sys2Proof/Syntax.lean ====
section
/-!
DEFINITION. The operations of the block and its two ports.
-/

namespace Sys2Proof

/-- The two command ports (rule R58). -/
inductive Port where
  /-- The real-time path: accepts only `SAMPLE`. -/
  | sample
  /-- The control path: accepts only `SETP`, `GETP`, `SETRATE`. -/
  | control
  deriving DecidableEq, Repr

/-- The whole command set (rule R52), one constructor per row of spec/opcode_table.json. -/
inductive Instr where
  /-- `SAMPLE ch, x` (rules R53, R63). -/
  | sample (ch : Sel) (x : F)
  /-- `SETP idx, v` (rules R54, R85). -/
  | setp (idx : Sel) (v : F)
  /-- `GETP idx` (rules R55, R89). -/
  | getp (idx : Sel)
  /-- `SETRATE r` (rules R56, R91). -/
  | setrate (r : F)
  deriving DecidableEq, Repr

end Sys2Proof
end

