-- ==== Sys2Proof/WellFormed.lean ====
section
/-!
DEFINITION. Which operations have an encoding, and which operands lie inside the specification.
-/

namespace Sys2Proof

/-- The operation has a command word that is not reserved: a `SAMPLE` names an existing channel
(rule R53, `0 <= ch < NCH`); every `idx` of 0..255 is legal (rules R54, R55); `SETRATE` has no selector. -/
def Instr.wf : Instr → Bool
  | .sample ch _ => decide (ch.toNat < Config.NCH)
  | .setp _ _ => true
  | .getp _ => true
  | .setrate _ => true

/-- The operand is inside the specification. `SETP` to an existing slot needs a value in [0,1]
(rule R88) and to an unknown index nothing (rule R87: "The operand `v` is not examined"); `SETRATE` needs
a finite rate above 0 (rule R92); `SAMPLE` and `GETP` take any operand (rules R84, R89). -/
def Instr.inDomain : Instr → Bool
  | .sample _ _ => true
  | .setp idx v => decide (4 ≤ idx.toNat) || Machine.inUnit v
  | .getp _ => true
  | .setrate r => Machine.legalRate r

end Sys2Proof
end

