-- ==== Sys2Proof/Decode.lean ====
section
/-!
DEFINITION. Decoding of command words and of their byte layout, and the encoder (rules R36, R50 to R59).
-/

namespace Sys2Proof

/-- Why a word is reserved (rule R57). -/
inductive Reserved where
  /-- `op` is 0x00 or in 0x05..0xFF. -/
  | opcode
  /-- `SAMPLE` with `sel >= NCH`. -/
  | channel
  /-- `GETP` with non-zero `data`. -/
  | getpData
  /-- `SETRATE` with non-zero `sel`. -/
  | setrateSel
  /-- Fewer than the six bytes of one word: no word at all (rule R62, one length). -/
  | truncated
  deriving DecidableEq, Repr

/-- What a decoder reads: an operation, or a reserved encoding by name. -/
inductive Decoded where
  | instr (i : Instr)
  | reserved (why : Reserved)
  deriving DecidableEq, Repr

/-- `op`, bits 47:40 (rule R50): above `sel` and `data`. -/
def opOf (w : Command) : Op := w.extractLsb' (Config.SEL_BITS + Config.FLT.width) 8

/-- `sel`, bits 39:32 (rule R50): above `data`. -/
def selOf (w : Command) : Sel := w.extractLsb' Config.FLT.width Config.SEL_BITS

/-- `data`, bits 31:0 (rule R50). -/
def dataOf (w : Command) : F := w.extractLsb' 0 Config.FLT.width

/-- The decoder, total on all 2^48 words (rule R62): it reads `op`, checks the constraints of rules R53
to R56, and otherwise yields "reserved" (rule R57). -/
def decode (w : Command) : Decoded :=
  if opOf w = 0x01#8 then
    if (selOf w).toNat < Config.NCH then .instr (.sample (selOf w) (dataOf w)) else .reserved .channel
  else if opOf w = 0x02#8 then .instr (.setp (selOf w) (dataOf w))
  else if opOf w = 0x03#8 then
    if dataOf w = 0#_ then .instr (.getp (selOf w)) else .reserved .getpData
  else if opOf w = 0x04#8 then
    if selOf w = 0#_ then .instr (.setrate (dataOf w)) else .reserved .setrateSel
  else .reserved .opcode

/-- The encoder: `cmd = op ++ sel ++ data` (rules R53 to R56). -/
def encode : Instr → Command
  | .sample ch x => 0x01#8 ++ ch ++ x
  | .setp idx v => 0x02#8 ++ idx ++ v
  | .getp idx => 0x03#8 ++ idx ++ 0#Config.FLT.width
  | .setrate r => 0x04#8 ++ 0#Config.SEL_BITS ++ r

/-- The port an operation belongs to (rules R52, R58). -/
def Instr.port : Instr → Port
  | .sample _ _ => .sample
  | .setp _ _ => .control
  | .getp _ => .control
  | .setrate _ => .control

/-- The word holds a `SAMPLE` operation. -/
def isSampleWord (w : Command) : Bool :=
  match decode w with
  | .instr (.sample _ _) => true
  | .instr (.setp _ _) => false
  | .instr (.getp _) => false
  | .instr (.setrate _) => false
  | .reserved _ => false

/-- A word laid out in bytes, least significant byte first (rule R36). -/
def bytesLE {n : Nat} (w : BitVec n) : List Byte :=
  (List.range ((n + 7) / 8)).map fun k => w.extractLsb' (8 * k) 8

/-- The number that bytes stand for, least significant byte first. -/
def natOfBytesLE : List Byte → Nat
  | [] => 0
  | b :: bs => b.toNat + 256 * natOfBytesLE bs

/-- A command word laid out in bytes (rule R36). -/
def commandBytes (w : Command) : List Byte := bytesLE w

/-- A response word or a cell value laid out in bytes (rule R36). -/
def responseBytes (v : Response) : List Byte := bytesLE v

/-- How many bytes a command word takes: six. -/
def commandByteCount : Nat := (commandBits + 7) / 8

/-- The decoder on bytes: one word from the first bytes, and the bytes that follow it. -/
def decodeBytes (bytes : List Byte) : Decoded × List Byte :=
  if bytes.length < commandByteCount then (.reserved .truncated, bytes)
  else (decode (BitVec.ofNat _ (natOfBytesLE (bytes.take commandByteCount))), bytes.drop commandByteCount)

/-- The instruction the decoder reads from a word of the opcode table (bit 0 least significant, bits at
and above `nbits` zero): laid out in bytes and decoded. -/
def decodeTableWord (nbits w : Nat) : Option Instr :=
  match (decodeBytes (commandBytes (BitVec.ofNat _ (w % 2 ^ nbits)))).1 with
  | .instr i => some i
  | .reserved _ => none

end Sys2Proof
end

