-- ==== Sys2Proof/Machine/State.lean ====
section
/-!
DEFINITION. The state of the block (rule R11), what its ports hold, the reasons it can stop, and reset
(rules R27, R114).
-/

namespace Sys2Proof.Machine

/-- An atomic 32-bit cell (rules R20, R21, R38): its value, and the earlier values that a `SAMPLE` may
still read (rules R40, R41), newest first, each with the number of `SAMPLE` operations issued since the
value was replaced. With `STALE_MAX = 0` and no `SAMPLE` outstanding the list is empty. -/
structure Cell where
  cur : F
  past : List (Nat × F)
  deriving DecidableEq, Repr

/-- One channel context: the seven elements of rule R11. -/
structure Channel where
  /-- `QC`, the committed window (rule R13). -/
  qc : Vector Delta Config.QLEN
  /-- `QB`, the building window (rule R14). -/
  qb : Vector Delta Config.QLEN
  /-- `QI`, the window cursor (rule R15). -/
  qi : Fin Config.QLEN
  /-- `DR`, the running level (rule R16). -/
  dr : Int
  /-- `DO`, the output accumulator (rule R17). -/
  dout : Int
  /-- `ZR`, the zero-run counter (rule R18). -/
  zr : Nat
  /-- `CLK`, the sub-sample clock (rule R19). -/
  clk : F
  deriving DecidableEq, Repr

/-- What a port holds: the command it has taken and not yet answered, and the responses it has given
since the block came up, oldest first (rules R51, R58, R128). -/
structure PortState where
  pending : Option Command
  responses : List Response
  deriving DecidableEq, Repr

/-- One entry of the schedule: what happens next (rules R6, R39, R113). DESIGN CHOICE: the order in
which the host, the two ports and the reset input act is data. Log 1. -/
inductive Turn where
  /-- The host issues a command word on a port. -/
  | issue (p : Port) (w : Command)
  /-- The block executes and answers the command outstanding on a port. -/
  | serve (p : Port)
  /-- The host asserts reset. -/
  | reset
  deriving DecidableEq, Repr

/-- The state. The first three fields are the block's own (rule R11); the ports hold the commands in
flight and the responses given; `turns` and `draws` are the model's own (logs 1 and 8). -/
structure State where
  /-- `P[0..3]` (rule R20). -/
  params : Vector Cell 4
  /-- `SRATE` (rule R21). -/
  srate : Cell
  /-- The channel contexts (rules R11, R109). -/
  chans : Vector Channel Config.NCH
  /-- The sample port (rule R58). -/
  sport : PortState
  /-- The control port (rule R58). -/
  cport : PortState
  /-- What happens next, first entry first. -/
  turns : List Turn
  /-- How many free values have been drawn. -/
  draws : Nat
  deriving DecidableEq, Repr

/-- The block raises no exception "for any command word, any operand value and any state" (rule R97): there
is no fault outcome, and so no constructor. Safe: nothing is left out, since every would-be fault of
rule R98 is a defined value, a no-op, or one of the refusals below. -/
inductive Fault where
  deriving DecidableEq, Repr

/-- Why the model gives no meaning. -/
inductive Refusal where
  /-- Raised by a dispatch arm whose operation has no meaning yet; none is left. Safe: the run stops. -/
  | notModelled (mnemonic : String)
  /-- Raised by `SETP` with `idx` in 0..3 and `v` NaN, below 0 or above 1: "the host must not issue it, and
  a model refuses it and gives it no meaning" (rule R88). Safe: the run stops. -/
  | paramOutsideDomain
  /-- Raised by `SETRATE` with a rate that is zero, negative, infinite or NaN: "the host must not issue
  them and a model refuses them" (rule R92). Safe: the run stops. -/
  | rateOutsideDomain
  /-- Raised when the host issues a command on a port that has not answered the one before (U17: "`refuse`:
  host duty. One command per port at a time"; rule R58). Safe: the run stops. -/
  | portBusy
  /-- Raised when reset is asserted with a command outstanding: "A model gives reset a step only from a
  state with no command in flight" (rule R116). Safe: the run stops. -/
  | resetInFlight
  deriving DecidableEq, Repr

/-- `P_RESET[i]` (rule R27: OPEN, each in [0,1], `P_RESET[2]` a multiple of 1/32). The draw is mapped onto
the slot's legal values, and every legal value is the image of some draw. Log 3. -/
def resetParam (i : Nat) : F :=
  if i = 2 then windowStep ((Config.pResetDraw i).toNat % (Config.WIN_MAX + 1))
  else if inUnit (Config.pResetDraw i) then Config.pResetDraw i
  else Config.ZERO

/-- `SRATE_RESET` (rule R27: OPEN, a finite value greater than 0). Log 3. -/
def resetRate : F := if legalRate Config.srateResetDraw then Config.srateResetDraw else Config.F_EMU

/-- A cell that has held no other value. -/
def Cell.fresh (v : F) : Cell := { cur := v, past := [] }

/-- A channel context after reset (rule R27). -/
def Channel.reset : Channel :=
  { qc := Vector.replicate Config.QLEN .zero
    qb := Vector.replicate Config.QLEN .zero
    qi := 0
    dr := 0
    dout := 0
    zr := 0
    clk := Config.ZERO }

/-- A port with no command outstanding and no response given. -/
def PortState.idle : PortState := { pending := none, responses := [] }

/-- The state after reset (rules R27, R114): the block is idle and no command waits. -/
def State.reset : State :=
  { params := Vector.ofFn fun i : Fin 4 => Cell.fresh (resetParam i)
    srate := Cell.fresh resetRate
    chans := Vector.replicate Config.NCH Channel.reset
    sport := PortState.idle
    cport := PortState.idle
    turns := []
    draws := 0 }

end Sys2Proof.Machine
end

