-- ==== Sys2Proof/Machine/Ops.lean ====
section
/-!
DEFINITION. The named operations over cells, windows and ports. The block takes no exception and returns
from none (rules R97, R102, R103: "no state is saved, no mode changes, no vector is fetched, and there is no
handler"), so no operation for either stands here.
-/

namespace Sys2Proof.Machine

/-! ### Window entries (rules R12, R49) -/

/-- The 2-bit two's complement code of an entry (rule R49). -/
def deltaCode : Delta → BitVec 2
  | .zero => 0b00#2
  | .up => 0b01#2
  | .down => 0b11#2

/-- `sext_Int(code)`: -1, 0 or +1 (rule R49). -/
def deltaVal (b : Delta) : Int := (deltaCode b).toInt

/-- The entry at a computed index. Rule R37: in every reachable state the index is in 0..31; beyond it no
rule says what an access gives, and the entry is a free value. Log 13. -/
def entryAt (q : Vector Delta Config.QLEN) (j : Int) : Delta :=
  if h : 0 ≤ j ∧ j.toNat < Config.QLEN then q[j.toNat]'h.2 else Config.freeEntry j

/-! ### Cells (rules R33 to R35, R38 to R41) -/

/-- The values an outstanding `SAMPLE` may read from the cell: the current one and those it has held since
the `SAMPLE` was issued (rule R40), or, with `STALE_MAX` above 0, somewhat longer (rule R41). -/
def Cell.values (c : Cell) : List F := c.cur :: c.past.map Prod.snd

/-- Which earlier values can still be read: with a `SAMPLE` outstanding those replaced at most `STALE_MAX`
issues ago; with none outstanding the next one will be one issue further on. -/
def Cell.keeps (busy : Bool) (age : Nat) : Bool :=
  if busy then decide (age ≤ Config.STALE_MAX) else decide (age < Config.STALE_MAX)

/-- Replaces the whole content of a cell in one step (rule R34). -/
def Cell.write (busy : Bool) (v : F) (c : Cell) : Cell :=
  { cur := v, past := ((0, c.cur) :: c.past).filter fun e => Cell.keeps busy e.1 }

/-- A `SAMPLE` is issued: earlier values are one issue older, and those too old are forgotten. -/
def Cell.age (c : Cell) : Cell :=
  { c with past := (c.past.map fun e => (e.1 + 1, e.2)).filter fun e => Cell.keeps true e.1 }

/-- The sample port has answered: only what the next `SAMPLE` may still read is kept. -/
def Cell.settle (c : Cell) : Cell :=
  { c with past := c.past.filter fun e => Cell.keeps false e.1 }

/-- The read of a cell by a `SAMPLE`, for a given choice among the values held (rule R40): the current value
if the cell has held no other, else the chosen one. -/
def Cell.readWith (pick : Nat) (c : Cell) : F :=
  match c.past with
  | [] => c.cur
  | _ :: _ => c.values.getD (pick % c.values.length) c.cur

/-- The read of cell `j` by the `SAMPLE` of draw `d`: the choice is free (rule R40). -/
def Cell.sampleRead (d j : Nat) (c : Cell) : F := c.readWith (Config.freePick d j)

/-- One function on all five cells. -/
def mapCells (f : Cell → Cell) (s : State) : State :=
  { s with params := Vector.ofFn fun i : Fin 4 => f s.params[i], srate := f s.srate }

/-- A command is outstanding on the sample port. -/
def sampleBusy (s : State) : Bool := s.sport.pending.isSome

/-- `PRead(i)` by the control port (rule R33). -/
def pRead (i : Fin 4) (s : State) : F := s.params[i].cur

/-- `PWrite(i, v)` (rule R34). -/
def pWrite (i : Fin 4) (v : F) (s : State) : State :=
  { s with params := s.params.set i (s.params[i].write (sampleBusy s) v) }

/-- `SWrite(v)` (rule R35). -/
def sWrite (v : F) (s : State) : State :=
  { s with srate := s.srate.write (sampleBusy s) v }

/-! ### Ports (rules R51, R58) -/

/-- The response word of a command that returns no value: 0x00000000 (rule R51). -/
def noValue : Response := 0#_

/-- What a port holds. -/
def portOf (p : Port) (s : State) : PortState :=
  match p with
  | .sample => s.sport
  | .control => s.cport

/-- Replaces what a port holds. -/
def setPort (p : Port) (t : PortState) (s : State) : State :=
  match p with
  | .sample => { s with sport := t }
  | .control => { s with cport := t }

/-- `respond(v)` (rules R9, R51): the response goes to the port the command came in on. When the sample
port answers, no `SAMPLE` is outstanding any more and the cells settle. -/
def respond (p : Port) (v : Response) (s : State) : State :=
  match p with
  | .sample => mapCells Cell.settle
      { s with sport := { s.sport with responses := s.sport.responses ++ [v] } }
  | .control => { s with cport := { s.cport with responses := s.cport.responses ++ [v] } }

/-- Takes the outstanding command off a port: it is being executed. -/
def takeCommand (p : Port) (s : State) : State := setPort p { portOf p s with pending := none } s

/-- The host issues a command on a port (rule R58); a `SAMPLE` starts the interval of its reads (R40). -/
def issueCommand (p : Port) (w : Command) (s : State) : State :=
  let t := setPort p { portOf p s with pending := some w } s
  match p with
  | .sample => if isSampleWord w then mapCells Cell.age t else t
  | .control => t

/-- A reserved command "changes no state and is answered by `resp = 0x00000000`" (rule R57). -/
def answerReserved (p : Port) (s : State) : State := respond p noValue s

/-- Reset (rule R114): every element takes its reset value. What the host has received, what it will do
next, and the count of free values drawn are outside the block and go on. Log 18. -/
def resetMachine (s : State) : State :=
  { State.reset with
    sport := { PortState.idle with responses := s.sport.responses }
    cport := { PortState.idle with responses := s.cport.responses }
    turns := s.turns
    draws := s.draws }

end Sys2Proof.Machine
end

