-- ==== Sys2Proof/Machine/Operands.lean ====
section
/-!
DEFINITION. The operand forms: the two readings of the selector, the five reads of a `SAMPLE`, and the
working values derived from them (rules R40, R59, R64 to R67).
-/

namespace Sys2Proof.Machine

/-- `sel` as a channel number (rule R53): none for `sel >= NCH`. -/
def chanIndex (ch : Sel) : Option (Fin Config.NCH) :=
  if h : ch.toNat < Config.NCH then some ⟨ch.toNat, h⟩ else none

/-- `sel` as a parameter index (rule R31): none for 4..255. -/
def paramIndex (idx : Sel) : Option (Fin 4) :=
  if h : idx.toNat < 4 then some ⟨idx.toNat, h⟩ else none

/-- The values one `SAMPLE` reads, one from each cell (rule R40). -/
structure Reads where
  p0 : F
  p1 : F
  p2 : F
  p3 : F
  rate : F
  deriving DecidableEq, Repr

/-- The five reads of a `SAMPLE`: exactly one of each cell (rule R40). -/
def readCells (s : State) : Reads :=
  { p0 := s.params[0].sampleRead s.draws 0
    p1 := s.params[1].sampleRead s.draws 1
    p2 := s.params[2].sampleRead s.draws 2
    p3 := s.params[3].sampleRead s.draws 3
    rate := s.srate.sampleRead s.draws 4 }

/-- The value read from `P[i]`. -/
def Reads.param (r : Reads) (i : Fin 4) : F :=
  if i = 0 then r.p0 else if i = 1 then r.p1 else if i = 2 then r.p2 else r.p3

/-- The current values of the five cells. -/
def currentReads (s : State) : Reads :=
  { p0 := s.params[0].cur, p1 := s.params[1].cur, p2 := s.params[2].cur, p3 := s.params[3].cur
    rate := s.srate.cur }

/-- The working values of one `SAMPLE` (rules R64 to R67). -/
structure Work where
  gain : F
  ds : Int
  w : Int
  ew : Int
  mix : F
  deriving DecidableEq, Repr

/-- `DERIVE.gain`: `fmul(PRead(0), 4.0)` (rule R64). -/
def deriveGain (d : Nat) (p0 : F) : F := fmul (quietNaN (d + 0)) p0 Config.AMP_SCALE

/-- `DERIVE.ds`: `floor_i(fadd(fmul(PRead(1), 255.0), 1.0))` (rule R65). -/
def deriveDs (d : Nat) (p1 : F) : Int :=
  floorInt (fadd (quietNaN (d + 2)) (fmul (quietNaN (d + 1)) p1 Config.DEPTH_SCALE) Config.ONE)

/-- `DERIVE.W`: `floor_i(fmul(PRead(2), 32.0))` (rule R66). -/
def deriveW (d : Nat) (p2 : F) : Int := floorInt (fmul (quietNaN (d + 3)) p2 Config.WIN_STEPS)

/-- `DERIVE.EW`: `W` if `W != 0`, else 8 (rule R66). -/
def effectiveWindow (w : Int) : Int := if w ≠ 0 then w else Config.FALLBACK_W

/-- `DERIVE` (rules R64 to R67). -/
def derive (d : Nat) (r : Reads) : Work :=
  { gain := deriveGain d r.p0
    ds := deriveDs d r.p1
    w := deriveW d r.p2
    ew := effectiveWindow (deriveW d r.p2)
    mix := r.p3 }

/-- `quant(v) = fdiv(round_haz(fmul(v, 32.0)), 32.0)` (rule R86). -/
def quant (d : Nat) (v : F) : F :=
  fdiv (quietNaN d) (roundHaz (fmul (quietNaN d) v Config.WIN_STEPS)) Config.WIN_STEPS

end Sys2Proof.Machine
end

