-- ==== Sys2Proof/Machine/Control.lean ====
section
/-!
DEFINITION. The control port's operations: `SETP`, `GETP`, `SETRATE` (rules R85 to R92).
-/

namespace Sys2Proof.Machine

/-- The value `SETP` stores in slot `i` (rules R85, R86): slot 2 is quantised, the others are stored bit for
bit. The quantisation of a value in [0,1] draws no NaN. -/
def storedValue (d : Nat) (i : Fin 4) (v : F) : F := if i = 2 then quant d v else v

/-- The meaning of `SETP idx, v` (rule R85). An unknown index is ignored and `v` is not examined (rule R87);
for a slot that exists a value outside [0,1] is refused (rule R88). -/
def execSetp (idx : Sel) (v : F) (s : State) : Host.Outcome State Fault Refusal :=
  match paramIndex idx with
  | none => .next (respond .control noValue s)
  | some i =>
    if inUnit v then .next (respond .control noValue (pWrite i (storedValue s.draws i v) s))
    else .refused .paramOutsideDomain

/-- The meaning of `GETP idx` (rules R89, R90). -/
def execGetp (idx : Sel) (s : State) : Host.Outcome State Fault Refusal :=
  match paramIndex idx with
  | none => .next (respond .control noValue s)
  | some i => .next (respond .control (pRead i s) s)

/-- The meaning of `SETRATE r` (rule R91); a rate that is not finite and positive is refused (rule R92). -/
def execSetrate (r : F) (s : State) : Host.Outcome State Fault Refusal :=
  if legalRate r then .next (respond .control noValue (sWrite r s))
  else .refused .rateOutsideDomain

end Sys2Proof.Machine
end

