-- ==== Sys2Proof/Machine/Flags.lean ====
section
/-!
DEFINITION. The block has no flags and no condition codes (rule R23). The two conditions the data path
tests are transient values of one `SAMPLE`; they stand here.
-/

namespace Sys2Proof.Machine

/-- `stepped`: `not flt(CLK, 1.0)` (rule R69), on the clock after `CLK.advance`. -/
def stepped (clk : F) : Bool := !flt clk Config.ONE

/-- The gate condition `ZR < 16` (rule R78): open when true. -/
def gateOpen (zr : Nat) : Bool := decide (zr < Config.GATE)

end Sys2Proof.Machine
end

