-- ==== Sys2Proof/Machine/Sample.lean ====
section
/-!
DEFINITION. The sample port's operation: `SAMPLE` and its micro-operations (rules R63 to R82). Every
floating-point operation has a draw number of its own for the NaN it may deliver (rule R46).
-/

namespace Sys2Proof.Machine

/-- How many draws one `SAMPLE` uses: one per floating-point operation it may perform. -/
def sampleDraws : Nat := 16

/-! ### CLK (rules R68, R69) -/

/-- `CLK.advance`: `fadd(CLK, fdiv(SRATE, 33144.0))` (rule R68). -/
def clkAdvance (d : Nat) (rate clk : F) : F :=
  fadd (quietNaN (d + 5)) clk (fdiv (quietNaN (d + 4)) rate Config.F_EMU)

/-- `CLK.threshold`: 1.0 is subtracted once if `stepped` (rule R69). -/
def clkThreshold (d : Nat) (clk : F) : F :=
  if stepped clk then fsub (quietNaN (d + 6)) clk Config.ONE else clk

/-! ### ENC (rules R70 to R76) -/

/-- `ENC.a`: `f2i_trunc(fmul(fmul(x, i2f(ds)), gain))` (rule R70). -/
def encComp (d : Nat) (x : F) (ds : Int) (gain : F) : Int :=
  f2iTrunc (fmul (quietNaN (d + 8)) (fmul (quietNaN (d + 7)) x (i2f ds)) gain)

/-- `ENC.b`, the decision (rule R71): up if `(comp >= DR and DR < ds) or DR <= -ds`. -/
def encBit (comp dr ds : Int) : Delta :=
  if (comp ≥ dr ∧ dr < ds) ∨ dr ≤ -ds then .up else .down

/-- `ENC.b`, the level (rule R71): one step in the direction of the bit. -/
def encLevel (bit : Delta) (dr : Int) : Int := dr + deltaVal bit

/-- `ENC.f`: the zero-run counter tests `comp` (rule R75). -/
def zeroRun (comp : Int) (zr : Nat) : Nat := if comp = 0 then zr + 1 else 0

/-- One encode step, parts a to f in order (rule R76): the window write and the read for `DO` use the
same cursor, and both levels are clamped to `[-ds, ds]` after their updates (rules R72 to R74). -/
def encodeStep (d : Nat) (k : Work) (x : F) (c : Channel) : Channel :=
  let comp := encComp d x k.ds k.gain
  let bit := encBit comp c.dr k.ds
  { c with
    qb := c.qb.set c.qi bit
    dr := clampInt (encLevel bit c.dr) (-k.ds) k.ds
    dout := clampInt (c.dout + deltaVal c.qc[c.qi]) (-k.ds) k.ds
    zr := zeroRun comp c.zr }

/-! ### REC (rule R78) -/

/-- `REC`: `fdiv(i2f(DO), i2f(ds))` while the gate is open, else +0.0 (rule R78). -/
def recLevel (d : Nat) (ds dout : Int) (zr : Nat) : F :=
  if gateOpen zr then fdiv (quietNaN (d + 9)) (i2f dout) (i2f ds) else Config.ZERO

/-! ### ADV and COMMIT (rules R79 to R81) -/

/-- `COMMIT.identity` (rule R80): the first `IDENT_COPY_LEN` entries are copied. -/
def commitIdentity (qb qc : Vector Delta Config.QLEN) : Vector Delta Config.QLEN :=
  Vector.ofFn fun i : Fin Config.QLEN => if i.val < Config.IDENT_COPY_LEN then qb[i] else qc[i]

/-- `COMMIT.reverse` (rule R81): entry `i` below `W` takes `QB[W-1-i]`, the others stay. -/
def commitReverse (w : Int) (qb qc : Vector Delta Config.QLEN) : Vector Delta Config.QLEN :=
  Vector.ofFn fun i : Fin Config.QLEN => if (i.val : Int) < w then entryAt qb (w - 1 - i.val) else qc[i]

/-- The commit kind is chosen by `W`, not by `EW` (rule R79). -/
def commit (w : Int) (qb qc : Vector Delta Config.QLEN) : Vector Delta Config.QLEN :=
  if w = 0 then commitIdentity qb qc else commitReverse w qb qc

/-- `ADV` wraps when the advanced cursor is at or beyond `EW` (rule R79). -/
def wraps (ew : Int) (qi : Fin Config.QLEN) : Bool := decide ((qi.val : Int) + 1 ≥ ew)

/-- The cursor one further; rule R24 (a): in a reachable state that does not wrap this is at most 31. -/
def nextCursor (qi : Fin Config.QLEN) : Fin Config.QLEN :=
  if h : qi.val + 1 < Config.QLEN then ⟨qi.val + 1, h⟩ else Config.freeCursor qi.val

/-- `ADV` (rule R79). -/
def advance (w ew : Int) (c : Channel) : Channel :=
  if wraps ew c.qi then { c with qi := 0, qc := commit w c.qb c.qc }
  else { c with qi := nextCursor c.qi }

/-! ### MIX (rule R82) -/

/-- `MIX`: `fdiv(fadd(fmul(cs, mix), fmul(fmul(x, fsub(1.0, mix)), gain)), gain)` (rule R82). -/
def mixOut (d : Nat) (cs mix x gain : F) : F :=
  let wet := fmul (quietNaN (d + 10)) cs mix
  let dry := fmul (quietNaN (d + 13))
    (fmul (quietNaN (d + 12)) x (fsub (quietNaN (d + 11)) Config.ONE mix)) gain
  fdiv (quietNaN (d + 15)) (fadd (quietNaN (d + 14)) wet dry) gain

/-! ### SAMPLE (rule R63) -/

/-- The clock after `CLK.advance` of this `SAMPLE`. -/
def clkNext (d : Nat) (r : Reads) (c : Channel) : F := clkAdvance d r.rate c.clk

/-- The channel after `CLK` and, if stepped, `ENC`. -/
def afterEnc (d : Nat) (r : Reads) (x : F) (c : Channel) : Channel :=
  let c1 := { c with clk := clkThreshold d (clkNext d r c) }
  if stepped (clkNext d r c) then encodeStep d (derive d r) x c1 else c1

/-- The channel after the whole `SAMPLE` (rule R63): `ADV` runs only if stepped. -/
def sampleNext (d : Nat) (r : Reads) (x : F) (c : Channel) : Channel :=
  if stepped (clkNext d r c) then advance (derive d r).w (derive d r).ew (afterEnc d r x c)
  else afterEnc d r x c

/-- The reconstructed level `cs` of the `SAMPLE`: `REC` runs on every sample, after `ENC` (rule R78). -/
def sampleLevel (d : Nat) (r : Reads) (x : F) (c : Channel) : F :=
  recLevel d (derive d r).ds (afterEnc d r x c).dout (afterEnc d r x c).zr

/-- The output sample `y` (rules R63, R82). -/
def sampleOut (d : Nat) (r : Reads) (x : F) (c : Channel) : F :=
  mixOut d (sampleLevel d r x c) (derive d r).mix x (derive d r).gain

/-- The meaning of `SAMPLE ch, x` (rule R63), for every operand and state (rules R84, R97). A channel
number at or above `NCH` is a reserved encoding (rules R53, R57). -/
def execSample (ch : Sel) (x : F) (s : State) : Host.Outcome State Fault Refusal :=
  match chanIndex ch with
  | none => .next (answerReserved .sample s)
  | some c =>
    .next (respond .sample (sampleOut s.draws (readCells s) x s.chans[c])
      { s with
        chans := s.chans.set c (sampleNext s.draws (readCells s) x s.chans[c])
        draws := s.draws + sampleDraws })

end Sys2Proof.Machine
end

