-- ==== Sys2Proof/Machine/Dispatch.lean ====
section
/-!
DEFINITION. One arm per operation (rule R52).
-/

namespace Sys2Proof.Machine

def exec (i : Instr) (s : State) : Host.Outcome State Fault Refusal :=
  match i with
  | .sample ch x => Sys2Proof.Machine.execSample ch x s
  | .setp idx v => Sys2Proof.Machine.execSetp idx v s
  | .getp idx => Sys2Proof.Machine.execGetp idx s
  | .setrate r => Sys2Proof.Machine.execSetrate r s

end Sys2Proof.Machine
end

