-- ==== Sys2Proof/Machine/Ports.lean ====
section
/-!
DEFINITION. What the ports and the reset input do: executing the outstanding command, issuing one, reset,
and which of them comes next (rules R39, R58, R105, R113, R116).
-/

namespace Sys2Proof.Machine

/-- What the word on a port asks for: an operation of that port, or nothing (rules R57, R58: a command on the
wrong port is reserved too). -/
def acceptedOn (p : Port) (w : Command) : Option Instr :=
  match decode w with
  | .instr i => if i.port = p then some i else none
  | .reserved _ => none

/-- The block executes the command outstanding on a port and answers it (rules R51, R63, R102: never
abandoned part-way). With none outstanding nothing happens (rule R111). -/
def serve (p : Port) (s : State) : Host.Outcome State Fault Refusal :=
  match (portOf p s).pending with
  | none => .next s
  | some w =>
    match acceptedOn p w with
    | some i => exec i (takeCommand p s)
    | none => .next (answerReserved p (takeCommand p s))

/-- The host issues a command: only on a port that has answered the one before (rule R58, U17). -/
def issue (p : Port) (w : Command) (s : State) : Host.Outcome State Fault Refusal :=
  match (portOf p s).pending with
  | none => .next (issueCommand p w s)
  | some _ => .refused .portBusy

/-- No command is outstanding on either port. -/
def quiet (s : State) : Bool := s.sport.pending.isNone && s.cport.pending.isNone

/-- The host asserts reset: only with no command outstanding (rule R116). -/
def assertReset (s : State) : Host.Outcome State Fault Refusal :=
  if quiet s then .next (resetMachine s) else .refused .resetInFlight

/-- The schedule is used up: "every operation responds after a finite, unspecified time" (rule R127), so an
outstanding command is executed; with one on each port either order is possible (rule R39 (d)) and a free
value chooses; with none the block is idle and holds its state (rule R111). Log 16. -/
def unscheduled (s : State) : Host.Outcome State Fault Refusal :=
  if s.cport.pending.isNone then serve .sample s
  else if s.sport.pending.isNone then serve .control s
  else if Config.freePort s.draws then serve .sample { s with draws := s.draws + 1 }
  else serve .control { s with draws := s.draws + 1 }

/-- One entry of the schedule. -/
def takeTurn (t : Turn) (s : State) : Host.Outcome State Fault Refusal :=
  match t with
  | .issue p w => issue p w s
  | .serve p => serve p s
  | .reset => assertReset s

/-- The command word an instruction of `nbits` bits is stored as (the table's bit numbering; bits at and
above `nbits` zero). -/
def wordOf (nbits w : Nat) : Command := BitVec.ofNat _ (w % 2 ^ nbits)

/-- The port a word is meant for: its opcode's (rule R58), the control port for a reserved one. -/
def wordPort (w : Command) : Port :=
  match decode w with
  | .instr i => i.port
  | .reserved _ => .control

/-- The host has issued the word on its port, and that port acts next. -/
def placeCommand (w : Command) (s : State) : State :=
  { issueCommand (wordPort w) w s with turns := .serve (wordPort w) :: s.turns }

end Sys2Proof.Machine
end

