-- ==== Sys2Proof/Machine/Step.lean ====
section
/-!
DEFINITION. One step of the machine: the next entry of the schedule, or what remains to be done when the
schedule is used up.
-/

namespace Sys2Proof.Machine

/-- One step (rules R6, R39, R63). -/
def step (s : State) : Host.Outcome State Fault Refusal :=
  match s.turns with
  | [] => unscheduled s
  | t :: rest => takeTurn t { s with turns := rest }

/-- The state in which the given word has just been issued on its port and is executed by the next step.
The block fetches nothing (rule R22): a program is the host's list of commands (rule R60). Log 2. -/
def State.withFetchWord (s : State) (nbits w : Nat) : State := placeCommand (wordOf nbits w) s

end Sys2Proof.Machine
end

