-- ==== Sys2Proof/Machine/Assembler.lean ====
section
/-!
DEFINITION. The assembler syntax and the pseudo-operations (rules R60, R61), and a program as the host's
turns: each command is issued after the response of the one before (rule R60).
-/

namespace Sys2Proof.Machine

/-! ### Float literals (rule R60) -/

/-- A float literal: a decimal number `digits / 10^scale` with its sign, or a bit pattern. -/
inductive FloatLit where
  | decimal (neg : Bool) (digits scale : Nat)
  | pattern (b : F)
  deriving DecidableEq, Repr

/-- The binary32 value a literal stands for: the nearest, ties to even, for a decimal number. -/
def litValue : FloatLit → F
  | .decimal neg digits scale => roundPack neg (digits * unit) (10 ^ scale)
  | .pattern b => b

/-! ### Lines and pseudo-operations (rule R61) -/

/-- One line: an operation or a pseudo-operation. -/
inductive AsmLine where
  | op (i : Instr)
  | params (a d w m : F)
  | init (r a d w m : F)
  | frame (xs : List F)
  | repeated (n : Nat) (l : AsmLine)
  | process (n : Nat) (bufs : List (List F))
  deriving DecidableEq, Repr

/-- `PARAMS a, d, w, m`. -/
def expandParams (a d w m : F) : List Instr := [.setp 0 a, .setp 1 d, .setp 2 w, .setp 3 m]

/-- `FRAME x0, x1, …` from channel `c` on. -/
def expandFrame (c : Nat) : List F → List Instr
  | [] => []
  | x :: xs => .sample (BitVec.ofNat _ c) x :: expandFrame (c + 1) xs

/-- `PROCESS n, in` from channel `c` on: channel-major (decision D26). -/
def expandProcess (n c : Nat) : List (List F) → List Instr
  | [] => []
  | b :: bs => (b.take n).map (.sample (BitVec.ofNat _ c)) ++ expandProcess n (c + 1) bs

/-- The operations a line stands for. -/
def expand : AsmLine → List Instr
  | .op i => [i]
  | .params a d w m => expandParams a d w m
  | .init r a d w m => .setrate r :: expandParams a d w m
  | .frame xs => expandFrame 0 xs
  | .repeated n l => (List.replicate n (expand l)).flatten
  | .process n bufs => expandProcess n 0 bufs

/-- The selector a host adapter presents for a software index: the index itself in 0..255, and by convention
0xFF for one that cannot be encoded (rule R32). -/
def hostIndex (i : Int) : Sel := if 0 ≤ i ∧ i < 2 ^ Config.SEL_BITS then BitVec.ofInt _ i else BitVec.allOnes _

/-- The turns of a program issued one command at a time, each after the response of the one before. -/
def turnsOf (is : List Instr) : List Turn :=
  is.flatMap fun i => [.issue i.port (encode i), .serve i.port]

/-! ### Reading a line (rule R60) -/

/-- The text without leading spaces. -/
def trimLeft (t : List Char) : List Char := t.dropWhile (· == ' ')

/-- The text without leading and trailing spaces. -/
def trimBoth (t : List Char) : List Char := (trimLeft (trimLeft t).reverse).reverse

/-- The text before the first `-> `annotation, which is not encoded. -/
def cutAnnotation : List Char → List Char
  | [] => []
  | '-' :: '>' :: _ => []
  | c :: cs => c :: cutAnnotation cs

/-- The text before a comment and an annotation. -/
def lineBody (t : List Char) : List Char := trimBoth (cutAnnotation (t.takeWhile (· != ';')))

/-- A decimal digit's value. -/
def digitVal (c : Char) : Option Nat := if c.isDigit then some (c.toNat - 48) else none

/-- A hexadecimal digit's value. -/
def hexVal (c : Char) : Option Nat :=
  if c.isDigit then some (c.toNat - 48)
  else if 65 ≤ c.toNat ∧ c.toNat ≤ 70 then some (c.toNat - 55)
  else if 97 ≤ c.toNat ∧ c.toNat ≤ 102 then some (c.toNat - 87)
  else none

/-- A run of digits in a base, most significant first. -/
def readDigits (val : Char → Option Nat) (base acc : Nat) : List Char → Option Nat
  | [] => some acc
  | c :: cs => (val c).bind fun v => readDigits val base (acc * base + v) cs

/-- A decimal integer of at least one digit. -/
def readNat (t : List Char) : Option Nat := if t.isEmpty then none else readDigits digitVal 10 0 t

/-- A decimal integer of 0..255, as the selector (rule R60). -/
def readSel (t : List Char) : Option Sel :=
  (readNat t).bind fun n => if n < 2 ^ Config.SEL_BITS then some (BitVec.ofNat _ n) else none

/-- A decimal number without its sign: digits, and digits after a point if there is one. -/
def readDecimal (neg : Bool) (t : List Char) : Option FloatLit :=
  let whole := t.takeWhile (· != '.')
  let frac := (t.dropWhile (· != '.')).drop 1
  if whole.isEmpty ∨ (t.contains '.' ∧ frac.isEmpty) then none
  else (readNat (whole ++ frac)).map fun n => .decimal neg n frac.length

/-- A float literal. -/
def readFloat : List Char → Option F
  | '0' :: 'x' :: hs =>
    if 4 * hs.length = Config.FLT.width then
      (readDigits hexVal 16 0 hs).map fun n => litValue (.pattern (BitVec.ofNat _ n))
    else none
  | '-' :: t => (readDecimal true t).map litValue
  | t => (readDecimal false t).map litValue

/-- The text split at commas, each part trimmed. -/
def splitOperands : List Char → List (List Char)
  | [] => [[]]
  | ',' :: cs => [] :: splitOperands cs
  | c :: cs =>
    match splitOperands cs with
    | [] => [[c]]
    | t :: ts => (c :: t) :: ts

/-- The mnemonic at the head of a line and the text after it. -/
def splitMnemonic (t : List Char) : List Char × List Char :=
  (t.takeWhile Char.isUpper, trimLeft (t.dropWhile Char.isUpper))

/-- One line of source text, or none if it is not of the form of rule R60 or R61. The fuel bounds the
nesting of `REPEAT`. -/
def readLine : Nat → List Char → Option AsmLine
  | 0, _ => none
  | fuel + 1, t =>
    let (m, rest) := splitMnemonic t
    let args := (splitOperands rest).map trimBoth
    let vals := args.map readFloat
    if m = ['S', 'A', 'M', 'P', 'L', 'E'] then
      match args with
      | [a, b] => (readSel a).bind fun c => (readFloat b).bind fun x =>
          if c.toNat < Config.NCH then some (.op (.sample c x)) else none
      | _ => none
    else if m = ['S', 'E', 'T', 'P'] then
      match args with
      | [a, b] => (readSel a).bind fun i => (readFloat b).map fun v => .op (.setp i v)
      | _ => none
    else if m = ['G', 'E', 'T', 'P'] then
      match args with
      | [a] => (readSel a).map fun i => .op (.getp i)
      | _ => none
    else if m = ['S', 'E', 'T', 'R', 'A', 'T', 'E'] then
      match vals with
      | [some r] => some (.op (.setrate r))
      | _ => none
    else if m = ['P', 'A', 'R', 'A', 'M', 'S'] then
      match vals with
      | [some a, some d, some w, some v] => some (.params a d w v)
      | _ => none
    else if m = ['I', 'N', 'I', 'T'] then
      match vals with
      | [some r, some a, some d, some w, some v] => some (.init r a d w v)
      | _ => none
    else if m = ['F', 'R', 'A', 'M', 'E'] then
      if vals.length = Config.NCH ∧ vals.all Option.isSome then some (.frame (vals.filterMap id)) else none
    else if m = ['R', 'E', 'P', 'E', 'A', 'T'] then
      (readNat (trimBoth (rest.takeWhile (· != ',')))).bind fun n =>
        (readLine fuel (trimBoth ((rest.dropWhile (· != ',')).drop 1))).map fun l => .repeated n l
    else none

/-- The operations one line of source text stands for; a blank line or a comment stands for none. -/
def assembleLine (t : List Char) : Option (List Instr) :=
  if (lineBody t).isEmpty then some [] else (readLine (t.length + 1) (lineBody t)).map expand

end Sys2Proof.Machine
end

