-- ==== Sys2Proof/Safety.lean ====
section
/-!
DEFINITION. What a claim may ask of a state and of a run: the invariants of rules R24 and R25 (d), runs of
steps, and what a safe run is.
-/

namespace Sys2Proof.Machine

/-- Every value a `SAMPLE` may read from the cell satisfies `p`. -/
def Cell.All (p : F → Bool) (c : Cell) : Prop := p c.cur = true ∧ ∀ e ∈ c.past, p e.2 = true

/-- The earlier values a cell keeps are those a `SAMPLE` may still read: none when no `SAMPLE` is outstanding
and `STALE_MAX` is 0 (rules R39 (b), R41). -/
def Cell.Kept (busy : Bool) (c : Cell) : Prop := ∀ e ∈ c.past, Cell.keeps busy e.1 = true

/-- The legal contents of slot `i` (rule R20, R24 (e)): a multiple of 1/32 for slot 2, any value in [0,1]
for the others. -/
def legalParam (i : Fin 4) (v : F) : Bool := if i = 2 then isWindowStep v else inUnit v

/-- The clock is no NaN and not below 0 (rule R25 (d)). It may have grown to +infinity (log 19). -/
def clockOk (clk : F) : Bool := !fIsNaN clk && decide (0 ≤ fVal clk)

/-- The bounds of one channel context (rules R24 (c), R25 (d)); items (a), (b) and (d) of R24 hold by the
types of `qi`, `qc`, `qb` and `zr`. -/
def Channel.Ok (c : Channel) : Prop :=
  -256 ≤ c.dr ∧ c.dr ≤ 256 ∧ -256 ≤ c.dout ∧ c.dout ≤ 256 ∧ clockOk c.clk = true

/-- The invariant of rule R24 with R25 (d): legal parameters and rate, bounded channels, and no earlier value
kept for longer than the read rules allow. -/
structure State.Inv (s : State) : Prop where
  params : ∀ i : Fin 4, s.params[i].All (legalParam i)
  srate : s.srate.All legalRate
  chans : ∀ c : Fin Config.NCH, s.chans[c].Ok
  keptParams : ∀ i : Fin 4, s.params[i].Kept (sampleBusy s)
  keptRate : s.srate.Kept (sampleBusy s)

/-- A value `SAMPLE` has read is legal in each of the five cells. -/
def Reads.Legal (r : Reads) : Prop :=
  inUnit r.p0 = true ∧ inUnit r.p1 = true ∧ isWindowStep r.p2 = true ∧ inUnit r.p3 = true ∧
    legalRate r.rate = true

/-- The context of one channel after `n` of its `SAMPLE` operations, each with its own draw number, reads and
input (rule R44: one at a time, in the order issued). -/
def sampleRun (d : Nat → Nat) (r : Nat → Reads) (x : Nat → F) (c : Channel) : Nat → Channel
  | 0 => c
  | n + 1 => sampleNext (d n) (r n) (x n) (sampleRun d r x c n)

/-- The `n`-th `SAMPLE` of the run runs an encode step. -/
def runSteps (d : Nat → Nat) (r : Nat → Reads) (x : Nat → F) (c : Channel) (n : Nat) : Bool :=
  stepped (clkNext (d n) (r n) (sampleRun d r x c n))

/-- How many of the first `n` ran an encode step. -/
def stepCount (d : Nat → Nat) (r : Nat → Reads) (x : Nat → F) (c : Channel) (n : Nat) : Nat :=
  ((List.range n).filter fun i => runSteps d r x c i).length

/-- `comp` of the `n`-th `SAMPLE` of the run, if it runs an encode step. -/
def runComp (d : Nat → Nat) (r : Nat → Reads) (x : Nat → F) (n : Nat) : Int :=
  encComp (d n) (x n) (deriveDs (d n) (r n).p1) (deriveGain (d n) (r n).p0)

/-- The bit the `n`-th `SAMPLE` of the run emits, if it runs an encode step. -/
def runBit (d : Nat → Nat) (r : Nat → Reads) (x : Nat → F) (c : Channel) (n : Nat) : Delta :=
  encBit (runComp d r x n) (sampleRun d r x c n).dr (deriveDs (d n) (r n).p1)

/-- The entry the `n`-th `SAMPLE` of the run adds to `DO`, if it runs an encode step (`ENC.d`). -/
def runReplayed (d : Nat → Nat) (r : Nat → Reads) (x : Nat → F) (c : Channel) (n : Nat) : Delta :=
  (sampleRun d r x c n).qc[(sampleRun d r x c n).qi]

/-- `n` steps lead from one state to another without a stop. -/
def StepsTo : Nat → State → State → Prop
  | 0, s, t => s = t
  | n + 1, s, t => ∃ u, step s = .next u ∧ StepsTo n u t

/-- A safe run: no step of it is refused (a fault there is none, rule R97). -/
def SafeFor (n : Nat) (s : State) : Prop := ∃ t, StepsTo n s t

/-- A state that some schedule of the host leads to from reset (rule R128). -/
def Reachable (t : State) : Prop := ∃ turns n, StepsTo n { State.reset with turns := turns } t

end Sys2Proof.Machine
end

