-- ==== Sys2Proof/Certificates/Slice0/Obligations.lean ====
section
/-!
DEFINITION. The statements for the provers. Floating-point constants are written as the bit patterns of rule
R48: 1.0 is 0x3F800000, 4.0 is 0x40800000, 255.0 is 0x437F0000, 32.0 is 0x42000000, 33144.0 is 0x47017800.
`quietNaN (d + k)` is the NaN that the k-th floating-point operation of a `SAMPLE` delivers if its result is
a NaN: a free value (log 7), so every statement holds whatever it is.
-/

open Sys2Proof Sys2Proof.Machine

/-! ### Encoding (rules R36, R50 to R59) -/

/-- Words written out from the examples of rules R53 to R56 and table V1 decode to what they stand for. -/
def Obligations.DecodesWordsOfTheSpec : Prop :=
  decode 0x01013F000000#48 = .instr (.sample 1#8 0x3F000000#32) ∧
  decode 0x0101BE800000#48 = .instr (.sample 1#8 0xBE800000#32) ∧
  decode 0x02013F000000#48 = .instr (.setp 1#8 0x3F000000#32) ∧
  decode 0x02073F000000#48 = .instr (.setp 7#8 0x3F000000#32) ∧
  decode 0x030200000000#48 = .instr (.getp 2#8) ∧
  decode 0x03FF00000000#48 = .instr (.getp 255#8) ∧
  decode 0x0400472C4400#48 = .instr (.setrate 0x472C4400#32) ∧
  decode 0x01023F000000#48 = .reserved .channel ∧
  decode 0x030200000001#48 = .reserved .getpData ∧
  decode 0x0401472C4400#48 = .reserved .setrateSel ∧
  decode 0x000000000000#48 = .reserved .opcode ∧
  decode 0x050000000000#48 = .reserved .opcode

/-- Decoding an encoded well-formed operation gives it back, with every operand at every value; a `SAMPLE` of
a channel that does not exist encodes to a reserved word (rules R53 to R56, R59). -/
def Obligations.DecodeInvertsEncode : Prop :=
  (∀ i : Instr, i.wf = true → decode (encode i) = .instr i) ∧
  (∀ i : Instr, i.wf = false → decode (encode i) = .reserved .channel)

/-- Every word has one meaning: a word that decodes to an operation is that operation's encoding, and the
operation is well-formed (rules R53 to R56, R62). -/
def Obligations.EncodeInvertsDecode : Prop :=
  ∀ (w : Command) (i : Instr), decode w = .instr i → i.wf = true ∧ encode i = w

/-- The least significant byte stands first and `op` last, and the decoder reads one word of six bytes
(rule R36). -/
def Obligations.BytesAreLittleEndian : Prop :=
  ∀ (w : Command) (rest : List Byte),
    decodeBytes (commandBytes w ++ rest) = (decode w, rest) ∧
    (∀ k, k < 6 → (commandBytes w)[k]?.map BitVec.toNat = some (w.toNat / 2 ^ (8 * k) % 256))

/-- Rule R57: which words are reserved on a port, and that a reserved command changes no state and is answered
with zero. -/
def Obligations.ReservedCommandIsAnsweredWithZero : Prop :=
  ∀ (s : State) (p : Port) (w : Command), (portOf p s).pending = some w →
    (let op := w.toNat / 2 ^ 40
     let sel := w.toNat / 2 ^ 32 % 256
     let data := w.toNat % 2 ^ 32
     op = 0 ∨ 5 ≤ op ∨ (op = 1 ∧ 2 ≤ sel) ∨ (op = 3 ∧ data ≠ 0) ∨ (op = 4 ∧ sel ≠ 0) ∨
       (op = 1 ∧ p = .control) ∨ (2 ≤ op ∧ op ≤ 4 ∧ p = .sample)) →
    ∃ t, serve p s = .next t ∧
      portOf p t = { pending := none, responses := (portOf p s).responses ++ [0x00000000#32] } ∧
      (∀ p', p' ≠ p → portOf p' t = portOf p' s) ∧
      t.chans = s.chans ∧ (∀ i : Fin 4, t.params[i].cur = s.params[i].cur) ∧
      t.srate.cur = s.srate.cur ∧ t.turns = s.turns ∧ t.draws = s.draws

/-! ### The step (rules R39, R51, R58, R97, R113, R116) -/

/-- When a port that acts next holds a word that decodes to an operation of that port, the step takes the
turn and the command off and is that operation's meaning. -/
def Obligations.StepRunsTheDecodedInstr : Prop :=
  ∀ (s : State) (p : Port) (rest : List Turn) (w : Command) (i : Instr),
    s.turns = .serve p :: rest → (portOf p s).pending = some w → decode w = .instr i → i.port = p →
    step s = exec i (takeCommand p { s with turns := rest })

/-- The word placed by `withFetchWord` is what the very next step runs. -/
def Obligations.FetchWordRunsNext : Prop :=
  ∀ (s : State) (w : Nat) (i : Instr), decodeTableWord 48 w = some i →
    step (s.withFetchWord 48 w) = exec i (takeCommand i.port (issueCommand i.port (wordOf 48 w) s))

/-- Where a step stops, and nowhere else: the host issues on a busy port, asserts reset with a command
outstanding, or has issued a control command whose operand is outside the specification (rules R88, R92,
R98, R116, U17). No step faults (rule R97). -/
def Obligations.StepRefusesExactlyWhen : Prop :=
  ∀ s : State,
    let outside := ∃ w i, s.cport.pending = some w ∧ decode w = .instr i ∧ i.inDomain = false
    (∀ f, step s ≠ .fault f) ∧
    (∀ p w rest, s.turns = .issue p w :: rest →
      ((∃ r, step s = .refused r) ↔ (portOf p s).pending ≠ none)) ∧
    (∀ rest, s.turns = .reset :: rest →
      ((∃ r, step s = .refused r) ↔ (s.sport.pending ≠ none ∨ s.cport.pending ≠ none))) ∧
    (∀ rest, s.turns = .serve .sample :: rest → ¬ ∃ r, step s = .refused r) ∧
    (∀ rest, s.turns = .serve .control :: rest → ((∃ r, step s = .refused r) ↔ outside)) ∧
    (s.turns = [] →
      ((∃ r, step s = .refused r) ↔
        (outside ∧ (s.sport.pending = none ∨ Config.freePort s.draws = false))))

/-- An accepted command produces exactly one response, on the port it came in on, after the earlier ones, and
the port is free again; the other port and the schedule are as before (rules R51, R58). -/
def Obligations.ServedCommandAnswersOnce : Prop :=
  ∀ (s t : State) (p : Port) (w : Command),
    (portOf p s).pending = some w → serve p s = .next t →
    (∃ v, portOf p t = { pending := none, responses := (portOf p s).responses ++ [v] }) ∧
      (∀ p', p' ≠ p → portOf p' t = portOf p' s) ∧ t.turns = s.turns

/-- With the schedule used up, an outstanding command is still answered (rule R127: every operation responds;
the choice of when is the model's, log 16). -/
def Obligations.OutstandingCommandIsAnswered : Prop :=
  ∀ (s : State) (w : Command), s.turns = [] →
    (s.cport.pending = none → s.sport.pending = some w →
      ∃ t v, step s = .next t ∧ t.sport = { pending := none, responses := s.sport.responses ++ [v] }) ∧
    (s.sport.pending = none → s.cport.pending = some w →
      (∀ i, decode w = .instr i → i.inDomain = true) →
      ∃ t v, step s = .next t ∧ t.cport = { pending := none, responses := s.cport.responses ++ [v] })

/-! ### Reset (rules R27, R113, R114, R116, R117) -/

/-- Rule R114 with R27: reset, with no command outstanding, gives every element of state its reset value in
every channel at once, and leaves both ports idle. The reset values of `P[i]` and `SRATE` are the free
constants `resetParam i` and `resetRate` (log 3). -/
def Obligations.ResetGivesTheResetState : Prop :=
  ∀ (s : State) (rest : List Turn), s.turns = .reset :: rest →
    s.sport.pending = none → s.cport.pending = none →
    ∃ t, step s = .next t ∧
      (∀ c : Fin Config.NCH,
        (∀ k : Fin 32, t.chans[c].qc[k] = .zero ∧ t.chans[c].qb[k] = .zero) ∧
        t.chans[c].qi = 0 ∧ t.chans[c].dr = 0 ∧ t.chans[c].dout = 0 ∧ t.chans[c].zr = 0 ∧
        t.chans[c].clk = 0x00000000#32) ∧
      (∀ i : Fin 4, t.params[i].values = [resetParam i]) ∧ t.srate.values = [resetRate] ∧
      t.sport.pending = none ∧ t.cport.pending = none ∧ t.turns = rest

/-- The open reset values lie in their legal domains (rules R7, R27): each parameter in [0,1], the third a
multiple of 1/32, the rate finite and above 0. -/
def Obligations.ResetValuesAreLegal : Prop :=
  inUnit (resetParam 0) = true ∧ inUnit (resetParam 1) = true ∧ isWindowStep (resetParam 2) = true ∧
    inUnit (resetParam 3) = true ∧ legalRate resetRate = true

/-- Reset with a command outstanding, and a second command on a busy port, have no meaning (rule R116, U17). -/
def Obligations.HostDutiesAreRefused : Prop :=
  (∀ (s : State) (rest : List Turn), s.turns = .reset :: rest →
    (s.sport.pending ≠ none ∨ s.cport.pending ≠ none) → step s = .refused .resetInFlight) ∧
  (∀ (s : State) (p : Port) (w : Command) (rest : List Turn), s.turns = .issue p w :: rest →
    (portOf p s).pending ≠ none → step s = .refused .portBusy)

/-- The bounds hold after reset (rules R24, R27). -/
def Obligations.ResetStateSatisfiesBounds : Prop := State.reset.Inv

/-- Rule R24 with R25 (d): from every state with legal parameters and rate, bounded levels and a clock that is
no NaN and not negative, every step leads to such a state again; and no cell keeps an earlier value that no
`SAMPLE` may read any more (rule R39 (b)). -/
def Obligations.EveryStepKeepsBounds : Prop :=
  ∀ s t : State, s.Inv → step s = .next t → t.Inv

/-- Rule R117: the boot sequence `INIT r, a, d, w, m`, run from reset command by command, sets the rate and the
four parameters whatever the open reset values are, answers each of the five commands with zero, and leaves
the channels as after reset. -/
def Obligations.BootSequenceSetsEveryCell : Prop :=
  ∀ (r a d w m : F) (rest : List Turn),
    legalRate r = true → inUnit a = true → inUnit d = true → inUnit w = true → inUnit m = true →
    ∃ t, StepsTo 10 { State.reset with turns := turnsOf (expand (.init r a d w m)) ++ rest } t ∧
      t.srate.values = [r] ∧ t.params[0].values = [a] ∧ t.params[1].values = [d] ∧
      t.params[2].values = [windowStep ((64 * fMag w + unit) / (2 * unit))] ∧ t.params[3].values = [m] ∧
      t.chans = State.reset.chans ∧ t.turns = rest ∧
      t.cport = { pending := none, responses := List.replicate 5 0x00000000#32 } ∧
      t.sport = { pending := none, responses := [] }

/-! ### The control operations (rules R85 to R92, R105) -/

/-- Rule R85: `SETP` on a slot that exists, with a value in [0,1], stores the value bit for bit in slots 0, 1
and 3 and its quantisation in slot 2, answers zero, and changes nothing else. -/
def Obligations.SetpStoresItsSlot : Prop :=
  ∀ (s : State) (idx : Sel) (v : F) (i : Fin 4), idx.toNat = i.val → inUnit v = true →
    ∃ t, exec (.setp idx v) s = .next t ∧
      t.params[i].cur = (if i = 2 then quant s.draws v else v) ∧
      (∀ j : Fin 4, j ≠ i → t.params[j] = s.params[j]) ∧
      t.srate = s.srate ∧ t.chans = s.chans ∧ t.sport = s.sport ∧
      t.cport = { s.cport with responses := s.cport.responses ++ [0x00000000#32] } ∧
      t.turns = s.turns ∧ t.draws = s.draws

/-- Rule R86: for `v` in [0,1] the stored value is `k/32` with `k` the integer nearest `32 v`, a tie going up,
and the window length derived from it is exactly `k`, at most 32. (`fMag` and `unit` count in units of
2^-149, the smallest subnormal, so `k` is computed exactly.) -/
def Obligations.SetpQuantisesTheWindow : Prop :=
  ∀ (d d' : Nat) (v : F), inUnit v = true →
    let k := (64 * fMag v + unit) / (2 * unit)
    quant d v = windowStep k ∧ k ≤ 32 ∧ fVal (windowStep k) * 32 = (k : Int) * fVal 0x3F800000#32 ∧
      deriveW d' (quant d v) = (k : Int)

/-- Rule R87: `SETP` with an index of 4..255 writes nothing and is answered as any `SETP`, for every `v`. -/
def Obligations.SetpUnknownIndexIsIgnored : Prop :=
  ∀ (s : State) (idx : Sel) (v : F), 4 ≤ idx.toNat →
    ∃ t, exec (.setp idx v) s = .next t ∧
      t = { s with cport := { s.cport with responses := s.cport.responses ++ [0x00000000#32] } }

/-- Rule R88: for an index of 0..3 a value that is NaN, below 0 or above 1 has no meaning. -/
def Obligations.SetpOutsideDomainIsRefused : Prop :=
  ∀ (s : State) (idx : Sel) (v : F), idx.toNat < 4 →
    (fIsNaN v = true ∨ fVal v < 0 ∨ fVal v > fVal 0x3F800000#32) →
    exec (.setp idx v) s = .refused .paramOutsideDomain

/-- Rules R89 and R90: `GETP` answers the cell's bits for an index of 0..3 and zero for any other, and changes
nothing. -/
def Obligations.GetpAnswersTheCell : Prop :=
  ∀ (s : State) (idx : Sel),
    ∃ t, exec (.getp idx) s = .next t ∧
      t = { s with cport := { s.cport with responses := s.cport.responses ++
        [if h : idx.toNat < 4 then (s.params[idx.toNat]'h).cur else 0x00000000#32] } }

/-- Rule R89: `GETP` after `SETP` returns the very bits for slots 0, 1 and 3, and `k/32` for slot 2. -/
def Obligations.GetpReturnsWhatSetpStored : Prop :=
  ∀ (s : State) (idx : Sel) (v : F), idx.toNat < 4 → inUnit v = true →
    ∃ t u, exec (.setp idx v) s = .next t ∧ exec (.getp idx) t = .next u ∧
      u.cport.responses = s.cport.responses ++
        [0x00000000#32, if idx.toNat = 2 then windowStep ((64 * fMag v + unit) / (2 * unit)) else v]

/-- Rule R91: `SETRATE` with a legal rate stores it, answers zero, and changes nothing else; in particular no
channel's `CLK`. -/
def Obligations.SetrateStoresTheRate : Prop :=
  ∀ (s : State) (r : F), legalRate r = true →
    ∃ t, exec (.setrate r) s = .next t ∧ t.srate.cur = r ∧
      t.params = s.params ∧ t.chans = s.chans ∧ t.sport = s.sport ∧
      t.cport = { s.cport with responses := s.cport.responses ++ [0x00000000#32] } ∧
      t.turns = s.turns ∧ t.draws = s.draws

/-- Rule R92: a rate that is zero, negative, infinite or NaN has no meaning. -/
def Obligations.SetrateOutsideDomainIsRefused : Prop :=
  ∀ (s : State) (r : F), (fIsNaN r = true ∨ fIsInf r = true ∨ fVal r ≤ 0) →
    exec (.setrate r) s = .refused .rateOutsideDomain

/-- Rule R105: a command on the control port touches no channel context and gives no sample response, and a
command on the sample port writes no parameter and no rate; said of serving a port and of the step whose turn
it is. -/
def Obligations.PortsKeepTheirRights : Prop :=
  ∀ (s t : State) (p : Port), (serve p s = .next t ∨ ∃ rest, s.turns = .serve p :: rest ∧ step s = .next t) →
    (p = .control → t.chans = s.chans ∧ t.sport = s.sport) ∧
    (p = .sample → (∀ i : Fin 4, t.params[i].cur = s.params[i].cur) ∧ t.srate.cur = s.srate.cur ∧
      t.cport = s.cport)

/-! ### SAMPLE: completion and frame (rules R26, R29, R63) -/

/-- Rules R26, R29 and R63: every `SAMPLE` of an existing channel completes, for every state and operand; it
changes that channel's context and no other, no cell's value, and answers one word. -/
def Obligations.SampleCompletesAndKeepsTheRest : Prop :=
  ∀ (s : State) (ch : Sel) (x : F) (c : Fin Config.NCH), ch.toNat = c.val →
    ∃ t, exec (.sample ch x) s = .next t ∧
      t.chans[c] = sampleNext s.draws (readCells s) x s.chans[c] ∧
      t.sport = { s.sport with
        responses := s.sport.responses ++ [sampleOut s.draws (readCells s) x s.chans[c]] } ∧
      (∀ c' : Fin Config.NCH, c' ≠ c → t.chans[c'] = s.chans[c']) ∧
      (∀ i : Fin 4, t.params[i].cur = s.params[i].cur) ∧ t.srate.cur = s.srate.cur ∧
      t.cport = s.cport ∧ t.turns = s.turns

/-- Rules R53 and R57: `SAMPLE` of a channel that does not exist changes no state and answers zero. -/
def Obligations.SampleOfMissingChannelIsReserved : Prop :=
  ∀ (s : State) (ch : Sel) (x : F), 2 ≤ ch.toNat →
    ∃ t, exec (.sample ch x) s = .next t ∧
      t.sport = { s.sport with responses := s.sport.responses ++ [0x00000000#32] } ∧
      t.chans = s.chans ∧ (∀ i : Fin 4, t.params[i].cur = s.params[i].cur) ∧
      t.srate.cur = s.srate.cur ∧ t.cport = s.cport ∧ t.turns = s.turns ∧ t.draws = s.draws

/-! ### SAMPLE: the micro-operations (rules R64 to R82) -/

/-- Rules R68 and R69: `CLK` advances by `SRATE / 33144.0`, and 1.0 is taken off once unless it is below
1.0. -/
def Obligations.SampleAdvancesTheClock : Prop :=
  ∀ (s : State) (ch : Sel) (x : F) (c : Fin Config.NCH), ch.toNat = c.val →
    let d := s.draws
    let clk1 := fadd (quietNaN (d + 5)) s.chans[c].clk
      (fdiv (quietNaN (d + 4)) (readCells s).rate 0x47017800#32)
    ∃ t, exec (.sample ch x) s = .next t ∧
      t.chans[c].clk = (if flt clk1 0x3F800000#32 then clk1 else fsub (quietNaN (d + 6)) clk1 0x3F800000#32)

/-- Rule R83 (a): a `SAMPLE` without an encode step changes the clock of its channel and nothing else of it. -/
def Obligations.SampleWithoutStepHolds : Prop :=
  ∀ (s : State) (ch : Sel) (x : F) (c : Fin Config.NCH), ch.toNat = c.val →
    let clk1 := clkNext s.draws (readCells s) s.chans[c]
    flt clk1 0x3F800000#32 = true →
    ∃ t, exec (.sample ch x) s = .next t ∧ t.chans[c] = { s.chans[c] with clk := clk1 }

/-- Rules R64, R65 and R70 to R75: what an encode step does to the level, the building window, the output
accumulator and the zero-run counter. -/
def Obligations.SampleEncodeStep : Prop :=
  ∀ (s : State) (ch : Sel) (x : F) (c : Fin Config.NCH), ch.toNat = c.val →
    let d := s.draws
    let r := readCells s
    let o := s.chans[c]
    let gain := fmul (quietNaN d) r.p0 0x40800000#32
    let ds := floorInt (fadd (quietNaN (d + 2)) (fmul (quietNaN (d + 1)) r.p1 0x437F0000#32) 0x3F800000#32)
    let comp := f2iTrunc (fmul (quietNaN (d + 8)) (fmul (quietNaN (d + 7)) x (i2f ds)) gain)
    let up := decide ((comp ≥ o.dr ∧ o.dr < ds) ∨ o.dr ≤ -ds)
    flt (clkNext d r o) 0x3F800000#32 = false →
    ∃ t, exec (.sample ch x) s = .next t ∧
      t.chans[c].dr = clampInt (if up then o.dr + 1 else o.dr - 1) (-ds) ds ∧
      (∀ j : Fin 32, t.chans[c].qb[j] = if j = o.qi then (if up then .up else .down) else o.qb[j]) ∧
      t.chans[c].dout = clampInt (o.dout + (match o.qc[o.qi] with | .zero => 0 | .up => 1 | .down => -1))
        (-ds) ds ∧
      t.chans[c].zr = if comp = 0 then o.zr + 1 else 0

/-- Rules R66 and R79 to R81: the cursor of an encode step and the commit when it wraps. The committed window
takes the building window's entries, the one just written among them: all of them when `W = 0`, the first `W`
in reversed order otherwise, the rest of `QC` staying. -/
def Obligations.SampleMovesTheCursorAndCommits : Prop :=
  ∀ (s : State) (ch : Sel) (x : F) (c : Fin Config.NCH), ch.toNat = c.val → s.Inv →
    let d := s.draws
    let r := readCells s
    let o := s.chans[c]
    let w := floorInt (fmul (quietNaN (d + 3)) r.p2 0x42000000#32)
    let ew := if w ≠ 0 then w else 8
    flt (clkNext d r o) 0x3F800000#32 = false →
    ∃ t, exec (.sample ch x) s = .next t ∧
      ((o.qi.val : Int) + 1 < ew → t.chans[c].qi.val = o.qi.val + 1 ∧ t.chans[c].qc = o.qc) ∧
      ((o.qi.val : Int) + 1 ≥ ew → t.chans[c].qi = 0 ∧
        (w = 0 → ∀ i : Fin 32, t.chans[c].qc[i] = t.chans[c].qb[i]) ∧
        (w ≠ 0 → (∀ i j : Fin 32, (i.val : Int) + j.val + 1 = w → t.chans[c].qc[i] = t.chans[c].qb[j]) ∧
          (∀ i : Fin 32, w ≤ (i.val : Int) → t.chans[c].qc[i] = o.qc[i])))

/-- Rules R67, R78 and R82: the output sample, from the accumulator, the zero-run counter and the depth of this
`SAMPLE`, whether or not an encode step ran. -/
def Obligations.SampleAnswersTheMix : Prop :=
  ∀ (s : State) (ch : Sel) (x : F) (c : Fin Config.NCH), ch.toNat = c.val →
    let d := s.draws
    let r := readCells s
    let gain := fmul (quietNaN d) r.p0 0x40800000#32
    let ds := floorInt (fadd (quietNaN (d + 2)) (fmul (quietNaN (d + 1)) r.p1 0x437F0000#32) 0x3F800000#32)
    ∃ t, exec (.sample ch x) s = .next t ∧
      (let cs := if t.chans[c].zr < 16 then fdiv (quietNaN (d + 9)) (i2f t.chans[c].dout) (i2f ds)
         else 0x00000000#32
       t.sport.responses = s.sport.responses ++
        [fdiv (quietNaN (d + 15))
          (fadd (quietNaN (d + 14)) (fmul (quietNaN (d + 10)) cs r.p3)
            (fmul (quietNaN (d + 13))
              (fmul (quietNaN (d + 12)) x (fsub (quietNaN (d + 11)) 0x3F800000#32 r.p3)) gain)) gain])

/-- Rules R24 (e), R64, R65 and R66: with legal parameters the working values lie in their ranges. -/
def Obligations.DerivedValuesInRange : Prop :=
  ∀ (d : Nat) (r : Reads), r.Legal →
    (fIsNaN (derive d r).gain = false ∧ 0 ≤ fVal (derive d r).gain ∧
      fVal (derive d r).gain ≤ fVal 0x40800000#32) ∧
    (1 ≤ (derive d r).ds ∧ (derive d r).ds ≤ 256) ∧
    (0 ≤ (derive d r).w ∧ (derive d r).w ≤ 32) ∧
    (1 ≤ (derive d r).ew ∧ (derive d r).ew ≤ 32) ∧
    (0 ≤ fVal (derive d r).mix ∧ fVal (derive d r).mix ≤ fVal 0x3F800000#32)

/-- Rule R64: for `P[0]` in [0,1] the gain is exactly four times the parameter, with the parameter's sign. -/
def Obligations.GainIsFourTimesTheAmplitude : Prop :=
  ∀ (d : Nat) (p : F), inUnit p = true →
    fVal (deriveGain d p) = 4 * fVal p ∧ fNeg (deriveGain d p) = fNeg p

/-- Rule R66: from the stored `k/32` the window length is `k` and the modulus `k`, or 8 for `k = 0`. -/
def Obligations.WindowLengthOfTheStoredValue : Prop :=
  ∀ (d k : Nat), k ≤ 32 →
    deriveW d (windowStep k) = (k : Int) ∧
      effectiveWindow (deriveW d (windowStep k)) = (if k = 0 then 8 else (k : Int))

/-! ### SAMPLE: what follows (rules R18, R25, R29, R46, R47, R69, R82 to R84) -/

/-- Rule R69: at a rate below 33144 Hz a clock in [0,1) stays in [0,1). -/
def Obligations.ClockStaysBelowOne : Prop :=
  ∀ (d : Nat) (r : Reads) (x : F) (c : Channel),
    legalRate r.rate = true → fVal r.rate < fVal 0x47017800#32 →
    clockOk c.clk = true → fVal c.clk < fVal 0x3F800000#32 →
    fIsNaN (sampleNext d r x c).clk = false ∧ 0 ≤ fVal (sampleNext d r x c).clk ∧
      fVal (sampleNext d r x c).clk < fVal 0x3F800000#32

/-- Rule R69: at a rate of 33144 Hz or more every `SAMPLE` runs an encode step, however large the clock has
grown. -/
def Obligations.FastRateStepsEverySample : Prop :=
  ∀ (d : Nat) (r : Reads) (c : Channel),
    legalRate r.rate = true → fVal 0x47017800#32 ≤ fVal r.rate → clockOk c.clk = true →
    stepped (clkNext d r c) = true

/-- Rule R25 (b): after a `SAMPLE` with an encode step both levels lie within the depth of that `SAMPLE`,
wherever they were before. -/
def Obligations.LevelsBoundedAfterEncodeStep : Prop :=
  ∀ (d : Nat) (r : Reads) (x : F) (c : Channel), r.Legal → stepped (clkNext d r c) = true →
    -(derive d r).ds ≤ (sampleNext d r x c).dr ∧ (sampleNext d r x c).dr ≤ (derive d r).ds ∧
      -(derive d r).ds ≤ (sampleNext d r x c).dout ∧ (sampleNext d r x c).dout ≤ (derive d r).ds

/-- Rule R83 (d): when every encode step among the first `n` `SAMPLE` operations has `comp = 0` and there are
at least 16 of them, the reconstructed level of the last is +0.0, whatever the state before. -/
def Obligations.SilenceGateCloses : Prop :=
  ∀ (d : Nat → Nat) (r : Nat → Reads) (x : Nat → F) (c : Channel) (n : Nat),
    (∀ i, i ≤ n → runSteps d r x c i = true → runComp d r x i = 0) →
    16 ≤ stepCount d r x c (n + 1) →
    sampleLevel (d n) (r n) (x n) (sampleRun d r x c n) = 0x00000000#32

/-- Rule R83 (e): from reset, with a constant window parameter, the reconstructed level is +0.0 through the
`EW`-th encode step. -/
def Obligations.WetSignalStartsOneWindowLate : Prop :=
  ∀ (d : Nat → Nat) (r : Nat → Reads) (x : Nat → F) (clk : F) (k n : Nat), k ≤ 32 →
    (∀ i, (r i).Legal ∧ (r i).p2 = windowStep k) →
    stepCount d r x { Channel.reset with clk := clk } (n + 1) ≤ (if k = 0 then 8 else k) →
    sampleLevel (d n) (r n) (x n) (sampleRun d r x { Channel.reset with clk := clk } n) = 0x00000000#32

/-- Rule R83 (h): from reset, with a constant window parameter, the entry an encode step adds to the output
accumulator is the bit emitted one window before, in the same order when `W = 0` and in reversed order
otherwise; during the first window it is 0. Encode steps are counted from reset, samples without one not. -/
def Obligations.WindowReplaysThePreviousBits : Prop :=
  ∀ (d : Nat → Nat) (r : Nat → Reads) (x : Nat → F) (clk : F) (k : Nat), k ≤ 32 →
    (∀ i, (r i).p2 = windowStep k) →
    let c := { Channel.reset with clk := clk }
    let ew := if k = 0 then 8 else k
    ∀ n, runSteps d r x c n = true →
      (stepCount d r x c n < ew → runReplayed d r x c n = .zero) ∧
      (∀ m, runSteps d r x c m = true →
        (k = 0 → stepCount d r x c n = stepCount d r x c m + 8 →
          runReplayed d r x c n = runBit d r x c m) ∧
        (∀ q j, k ≠ 0 → j < k → stepCount d r x c n = k * (q + 1) + j →
          stepCount d r x c m = k * q + (k - 1 - j) → runReplayed d r x c n = runBit d r x c m))

/-- Rules R82 and R118: with amplitude 0 and a finite input, `comp` is 0 and the output is an infinity when
the wet product is not zero, its sign the exclusive-or of the product's and the gain's, and a NaN when it
is. -/
def Obligations.ZeroAmplitudeGivesInfinityOrNaN : Prop :=
  ∀ (d : Nat) (r : Reads) (x : F) (c : Channel), r.Legal → c.Ok → fVal r.p0 = 0 → fIsFinite x = true →
    let wet := fmul (quietNaN (d + 10)) (sampleLevel d r x c) r.p3
    encComp d x (derive d r).ds (derive d r).gain = 0 ∧
      (fVal wet = 0 → fIsNaN (sampleOut d r x c) = true) ∧
      (fVal wet ≠ 0 → fIsInf (sampleOut d r x c) = true ∧
        fNeg (sampleOut d r x c) = xor (fNeg wet) (fNeg r.p0))

/-- Rule R84: a NaN input gives `comp = 0` and a NaN output; an infinite input with a non-zero amplitude
saturates `comp` and gives an infinity of its sign, or a NaN when `mix = 1.0`; the clock stays a number not
below 0. -/
def Obligations.NonFiniteInputDamagesOneOutput : Prop :=
  ∀ (d : Nat) (r : Reads) (x : F) (c : Channel), r.Legal → c.Ok →
    (fIsNaN x = true →
      encComp d x (derive d r).ds (derive d r).gain = 0 ∧ fIsNaN (sampleOut d r x c) = true) ∧
    (fIsInf x = true → fVal r.p0 ≠ 0 →
      encComp d x (derive d r).ds (derive d r).gain = (if fNeg x then -2147483648 else 2147483647) ∧
      (fVal r.p3 < fVal 0x3F800000#32 →
        fIsInf (sampleOut d r x c) = true ∧ fNeg (sampleOut d r x c) = fNeg x) ∧
      (fVal r.p3 = fVal 0x3F800000#32 → fIsNaN (sampleOut d r x c) = true)) ∧
    clockOk (sampleNext d r x c).clk = true

/-- Rule R83 (b): with `mix = 0` and a non-zero gain the output is `fdiv(fmul(x, gain), gain)` when that is not
zero, whatever the depth, the window and the channel's state. -/
def Obligations.DryPassthrough : Prop :=
  ∀ (d : Nat) (r : Reads) (x q q' : F) (c : Channel), r.Legal → c.Ok →
    fVal r.p3 = 0 → fVal r.p0 ≠ 0 → fIsNaN x = false →
    let z := fdiv q (fmul q' x (derive d r).gain) (derive d r).gain
    fVal z ≠ 0 → sampleOut d r x c = z

/-- Rule R83 (c): after an encode step, fully wet and with a finite input and a non-zero gain, the output is at
most `1/gain` in magnitude. -/
def Obligations.WetOutputIsBounded : Prop :=
  ∀ (d : Nat) (r : Reads) (x q : F) (c : Channel), r.Legal → c.Ok →
    r.p3 = 0x3F800000#32 → fVal r.p0 ≠ 0 → fIsFinite x = true → stepped (clkNext d r c) = true →
    fIsNaN (sampleOut d r x c) = false ∧
      fMag (sampleOut d r x c) ≤ fMag (fdiv q 0x3F800000#32 (derive d r).gain)

/-- Rule R18: a zero-run counter that stops at 16 gives the same outputs, and the same channel but for the
counter itself. -/
def Obligations.ZeroRunCounterMaySaturate : Prop :=
  ∀ (d : Nat) (r : Reads) (x : F) (c : Channel),
    let cut := fun o : Channel => { o with zr := min o.zr 16 }
    sampleOut d r x (cut c) = sampleOut d r x c ∧
      cut (sampleNext d r x (cut c)) = cut (sampleNext d r x c)

/-- Rule R47: any saturation bound of 257 or more for `comp` gives the same bit and the same zero-run count,
for levels and depths of at most 256. -/
def Obligations.CompBoundIsUnobservable : Prop :=
  ∀ (comp b dr ds : Int) (zr : Nat), 257 ≤ b → -256 ≤ dr → dr ≤ 256 → 1 ≤ ds → ds ≤ 256 →
    encBit (clampInt comp (-b) b) dr ds = encBit comp dr ds ∧
      zeroRun (clampInt comp (-b) b) zr = zeroRun comp zr

/-- Rule R29: what a `SAMPLE c` answers and leaves in channel `c` is settled by the cells it reads and by
channel `c` alone; the other channels have no influence. -/
def Obligations.ChannelsDoNotInteract : Prop :=
  ∀ (s s' : State) (ch : Sel) (x : F) (c : Fin Config.NCH), ch.toNat = c.val →
    s.params = s'.params → s.srate = s'.srate → s.draws = s'.draws → s.chans[c] = s'.chans[c] →
    ∃ t t' v, exec (.sample ch x) s = .next t ∧ exec (.sample ch x) s' = .next t' ∧
      t.chans[c] = t'.chans[c] ∧ t.sport.responses = s.sport.responses ++ [v] ∧
      t'.sport.responses = s'.sport.responses ++ [v]

/-- Rule R46 with U2: which NaN an operation delivers reaches only the response. With legal reads and a
bounded channel the next channel context does not depend on it, and two outputs differ only as NaNs. -/
def Obligations.NaNDrawReachesOnlyTheResponse : Prop :=
  ∀ (d d' : Nat) (r : Reads) (x : F) (c : Channel), r.Legal → c.Ok →
    sampleNext d r x c = sampleNext d' r x c ∧
      (sampleOut d r x c = sampleOut d' r x c ∨
        (fIsNaN (sampleOut d r x c) = true ∧ fIsNaN (sampleOut d' r x c) = true))

/-- Rules R29, R61 and R109: two `SAMPLE` operations of different channels, with no write in flight, lead to the
same channels and cells in either order, and give the same outputs, up to which NaN a NaN is. -/
def Obligations.SamplesOfTwoChannelsCommute : Prop :=
  ∀ (s : State) (ch₁ ch₂ : Sel) (x₁ x₂ : F), s.Inv → s.sport.pending = none →
    ch₁.toNat < 2 → ch₂.toNat < 2 → ch₁ ≠ ch₂ →
    ∃ t u t' u' y₁ y₂ y₁' y₂',
      exec (.sample ch₁ x₁) s = .next t ∧ exec (.sample ch₂ x₂) t = .next u ∧
      exec (.sample ch₂ x₂) s = .next t' ∧ exec (.sample ch₁ x₁) t' = .next u' ∧
      u.chans = u'.chans ∧ u.params = u'.params ∧ u.srate = u'.srate ∧
      u.sport.responses = s.sport.responses ++ [y₁, y₂] ∧
      u'.sport.responses = s.sport.responses ++ [y₂', y₁'] ∧
      (y₁ = y₁' ∨ (fIsNaN y₁ = true ∧ fIsNaN y₁' = true)) ∧
      (y₂ = y₂' ∨ (fIsNaN y₂ = true ∧ fIsNaN y₂' = true))

/-! ### The two ports at once (rules R39, R40) -/

/-- Rule R40: each of the five reads of a `SAMPLE` is one of the values its cell has held, any of them is
possible, and a cell that has held no other value is read as it stands. -/
def Obligations.SampleReadsAHeldValue : Prop :=
  (∀ (s : State) (i : Fin 4), (readCells s).param i ∈ s.params[i].values) ∧
  (∀ s : State, (readCells s).rate ∈ s.srate.values) ∧
  (∀ (c : Cell) (v : F), v ∈ c.values → ∃ pick, c.readWith pick = v) ∧
  (∀ (c : Cell) (d j : Nat), c.past = [] → c.sampleRead d j = c.cur)

/-- Rule R39 (b): a `SETP` or a `SETRATE` that has been answered is seen by a `SAMPLE` issued afterwards, whose
other reads are the current values too. -/
def Obligations.CompletedWriteIsSeen : Prop :=
  ∀ (s t u : State) (ch : Sel) (x : F), s.Inv → s.sport.pending = none → ch.toNat < 2 →
    serve .control s = .next t → issue .sample (encode (.sample ch x)) t = .next u →
    (∀ (idx : Sel) (i : Fin 4) (v : F), idx.toNat = i.val → s.cport.pending = some (encode (.setp idx v)) →
      readCells (takeCommand .sample u) = currentReads t ∧
        (currentReads t).param i = (if i = 2 then quant s.draws v else v) ∧
        (∀ j, j ≠ i → (currentReads t).param j = (currentReads s).param j) ∧
        (currentReads t).rate = (currentReads s).rate) ∧
    (∀ r : F, s.cport.pending = some (encode (.setrate r)) →
      readCells (takeCommand .sample u) = currentReads t ∧ (currentReads t).rate = r ∧
        (∀ j, (currentReads t).param j = (currentReads s).param j))

/-- Rule R40: a `SETP` or a `SETRATE` executed while a `SAMPLE` is outstanding may or may not be seen by it: its
read of that cell is the value from before or the value from after, and every other read is the current
value. -/
def Obligations.OverlappingWriteIsSeenOrNot : Prop :=
  ∀ (s t : State) (w : Command), s.sport.pending = some w →
    (∀ j : Fin 4, s.params[j].past = []) → s.srate.past = [] → serve .control s = .next t →
    let reads := readCells (takeCommand .sample t)
    (∀ (idx : Sel) (i : Fin 4) (v : F), idx.toNat = i.val → s.cport.pending = some (encode (.setp idx v)) →
      (reads.param i = (currentReads s).param i ∨ reads.param i = (if i = 2 then quant s.draws v else v)) ∧
        t.params[i].values = [if i = 2 then quant s.draws v else v, (currentReads s).param i] ∧
        (∀ j, j ≠ i → reads.param j = (currentReads s).param j) ∧ reads.rate = (currentReads s).rate) ∧
    (∀ r : F, s.cport.pending = some (encode (.setrate r)) →
      (reads.rate = (currentReads s).rate ∨ reads.rate = r) ∧
        t.srate.values = [r, (currentReads s).rate] ∧
        (∀ j, reads.param j = (currentReads s).param j))

/-! ### Arithmetic (rules R45 to R47) -/

/-- Rule R46: the result of `fadd`, `fsub`, `fmul` and `fdiv` on finite operands is no NaN and has the sign of the
exact result, a zero or an infinity too: the exclusive-or of the operand signs for a product or a quotient,
and for a sum that is exactly zero the minus sign only when both terms are negative zeros; if it is finite, no finite
value is nearer to the exact result, and one as near that differs from it is taken only when the result's
fraction is even; and it is infinite exactly when the exact magnitude reaches the middle between the largest
finite value and 2^128. Values are counted in units of 2^-149, so the exact results are fractions of
integers. -/
def Obligations.ArithmeticRoundsToNearest : Prop :=
  let nearest := fun (neg : Bool) (num den : Int) (y : F) =>
    fIsNaN y = false ∧ fNeg y = neg ∧
    (fIsFinite y = true → ∀ z : F, fIsFinite z = true →
      |num - fVal y * den| ≤ |num - fVal z * den| ∧
      (|num - fVal y * den| = |num - fVal z * den| → fVal y = fVal z ∨ y.toNat % 2 = 0)) ∧
    (fIsInf y = true ↔ (fVal 0x7F7FFFFF#32 + fVal 0x7F800000#32) * |den| ≤ 2 * |num|)
  ∀ q a b : F, fIsFinite a = true → fIsFinite b = true →
    nearest (if fVal a + fVal b = 0 then fNeg a && fNeg b else decide (fVal a + fVal b < 0))
      (fVal a + fVal b) 1 (fadd q a b) ∧
    nearest (if fVal a - fVal b = 0 then fNeg a && !fNeg b else decide (fVal a < fVal b))
      (fVal a - fVal b) 1 (fsub q a b) ∧
    nearest (xor (fNeg a) (fNeg b)) (fVal a * fVal b) (fVal 0x3F800000#32) (fmul q a b) ∧
    (fVal b ≠ 0 →
      nearest (xor (fNeg a) (fNeg b)) (fVal a * fVal 0x3F800000#32) (fVal b) (fdiv q a b))

/-- Rule R46: the results on zeros, infinities and NaNs with their signs, and that every NaN delivered is a quiet
one. `q` is the free NaN of the operation. -/
def Obligations.SpecialResults : Prop :=
  (∀ k, fIsNaN (quietNaN k) = true ∧ fIsQuietNaN (quietNaN k) = true) ∧
  (∀ q a b : F, fIsFinite a = true → fVal a ≠ 0 → fVal b = 0 →
    fdiv q a b = (if xor (fNeg a) (fNeg b) then 0xFF800000#32 else 0x7F800000#32)) ∧
  (∀ q a b : F, fIsInf a = true → fIsFinite b = true →
    fdiv q a b = (if xor (fNeg a) (fNeg b) then 0xFF800000#32 else 0x7F800000#32) ∧
    fdiv q b a = (if xor (fNeg b) (fNeg a) then 0x80000000#32 else 0x00000000#32)) ∧
  (∀ q a b : F, fIsInf a = true → fIsNaN b = false → fVal b ≠ 0 →
    fmul q a b = (if xor (fNeg a) (fNeg b) then 0xFF800000#32 else 0x7F800000#32) ∧
    fmul q b a = (if xor (fNeg b) (fNeg a) then 0xFF800000#32 else 0x7F800000#32)) ∧
  (∀ q a b : F, fIsInf a = true → fIsFinite b = true ∨ (fIsInf b = true ∧ fNeg a = fNeg b) →
    fadd q a b = a ∧ fadd q b a = a) ∧
  (∀ q a b : F, fIsInf a = true → fIsFinite b = true → fsub q a b = a ∧ fsub q b a = fFlip a) ∧
  (∀ q a b : F, fIsInf a = true → fIsInf b = true → fNeg a ≠ fNeg b → fsub q a b = a) ∧
  (∀ q a b : F, fVal a = 0 → fVal b = 0 → fdiv q a b = q) ∧
  (∀ q a b : F, fIsInf a = true → fIsInf b = true → fdiv q a b = q) ∧
  (∀ q a b : F, fIsInf a = true → fVal b = 0 → fmul q a b = q ∧ fmul q b a = q) ∧
  (∀ q a b : F, fIsInf a = true → fIsInf b = true → fNeg a ≠ fNeg b → fadd q a b = q) ∧
  (∀ q a : F, fIsInf a = true → fsub q a a = q) ∧
  (∀ q a b : F, fIsNaN a = true ∨ fIsNaN b = true →
    fadd q a b = q ∧ fsub q a b = q ∧ fmul q a b = q ∧ fdiv q a b = q ∧ flt a b = false) ∧
  (∀ a b : F, fIsNaN a = false → fIsNaN b = false → (flt a b = true ↔ fVal a < fVal b)) ∧
  fVal 0x80000000#32 = fVal 0x00000000#32

/-- Rule R47: the four conversions, each on the values the rule gives it for. `fVal 0x3F800000` is 1.0 in
units. -/
def Obligations.ConversionsAreAsTheRuleSays : Prop :=
  let one := fVal 0x3F800000#32
  (∀ n : Int, -256 ≤ n → n ≤ 256 → fVal (i2f n) = n * one) ∧
  (∀ a : F, fIsNaN a = false → |fVal a| < 2147483648 * one →
    |f2iTrunc a| * one ≤ |fVal a| ∧ |fVal a| < (|f2iTrunc a| + 1) * one ∧
      (0 ≤ fVal a → 0 ≤ f2iTrunc a) ∧ (fVal a ≤ 0 → f2iTrunc a ≤ 0)) ∧
  (∀ a : F, fIsNaN a = false → 2147483648 * one ≤ fVal a → f2iTrunc a = 2147483647) ∧
  (∀ a : F, fIsNaN a = false → fVal a ≤ -2147483648 * one → f2iTrunc a = -2147483648) ∧
  (∀ a : F, fIsNaN a = true → f2iTrunc a = 0) ∧
  (∀ a : F, fIsFinite a = true → 0 ≤ fVal a →
    floorInt a * one ≤ fVal a ∧ fVal a < (floorInt a + 1) * one) ∧
  (∀ a : F, fIsNaN a = false → 0 ≤ fVal a → fVal a ≤ 32 * one →
    ∃ n : Int, fVal (roundHaz a) = n * one ∧ 2 * n * one - one ≤ 2 * fVal a ∧ 2 * fVal a < 2 * n * one + one)

/-! ### What a step may change (rules R28, R111, R115) -/

/-- Rules R39 (b), R40 and R58: the host's issue puts the word on the free port and changes nothing else of the
block; a `SAMPLE` issued may read the current values only, until a write overlaps it (`STALE_MAX` = 0). -/
def Obligations.IssueTurnOnlyPlacesTheWord : Prop :=
  ∀ (s : State) (p : Port) (w : Command) (rest : List Turn), s.turns = .issue p w :: rest →
    (portOf p s).pending = none →
    ∃ t, step s = .next t ∧ portOf p t = { pending := some w, responses := (portOf p s).responses } ∧
      (∀ p', p' ≠ p → portOf p' t = portOf p' s) ∧ t.chans = s.chans ∧
      (∀ i : Fin 4, t.params[i].cur = s.params[i].cur) ∧ t.srate.cur = s.srate.cur ∧
      (p = .control → t.params = s.params ∧ t.srate = s.srate) ∧
      (∀ ch x, p = .sample → decode w = .instr (.sample ch x) →
        (∀ i : Fin 4, t.params[i].past = []) ∧ t.srate.past = []) ∧
      t.turns = rest ∧ t.draws = s.draws

/-- Rule R111: with no command outstanding the block is idle and holds its state: a step with no turn left is
the state itself, and a turn that serves an empty port takes only the turn off. -/
def Obligations.IdleStepHoldsTheState : Prop :=
  (∀ s : State, s.turns = [] → s.sport.pending = none → s.cport.pending = none → step s = .next s) ∧
  (∀ (s : State) (p : Port) (rest : List Turn), s.turns = .serve p :: rest → (portOf p s).pending = none →
    step s = .next { s with turns := rest })

/-- Rules R28 and R115: in a step that is no reset, the context of channel `c` changes only if the step executes
and answers an outstanding `SAMPLE c`, the value of slot `i` only if it executes a `SETP i`, and the rate only
if it executes a `SETRATE`. -/
def Obligations.StateChangesOnlyByItsOperation : Prop :=
  ∀ s t : State, step s = .next t → s.turns.head? ≠ some .reset →
    let executed := fun i : Instr =>
      (∃ w, (portOf i.port s).pending = some w ∧ decode w = .instr i) ∧
      ∃ v, portOf i.port t = { pending := none, responses := (portOf i.port s).responses ++ [v] }
    (∀ c : Fin Config.NCH, t.chans[c] ≠ s.chans[c] → ∃ ch x, ch.toNat = c.val ∧ executed (.sample ch x)) ∧
    (∀ i : Fin 4, t.params[i].cur ≠ s.params[i].cur → ∃ idx v, idx.toNat = i.val ∧ executed (.setp idx v)) ∧
    (t.srate.cur ≠ s.srate.cur → ∃ r, executed (.setrate r))
end

