-- ==== Sys2Proof/Laws/Float.lean ====
section
/-!
SUPPORT. Facts about the binary32 arithmetic: the encoding order is the order of the magnitudes, and a
rounded magnitude lies on the same side of every representable value as the exact one.
-/

namespace Sys2Proof.Machine

/-! ### The constants -/

theorem width_val : Config.FLT.width = 32 := rfl

theorem pattern_lt (a : F) : a.toNat < 4294967296 := a.isLt

theorem hid_val : hid = 8388608 := by decide

theorem infEnc_val : infEnc = 2139095040 := by decide

theorem signBit_val : signBit = 2147483648 := by decide

theorem unit_val : unit = 2 ^ 149 := by decide

theorem unit_pos : 0 < unit := by rw [unit_val]; positivity

theorem hid_pos : 0 < hid := by decide

/-! ### Encodings and magnitudes -/

theorem encMag_of_lt {e : Nat} (h : e < hid) : encMag e = e := by
  simp [encMag, Nat.div_eq_of_lt h, Nat.mod_eq_of_lt h]

/-- The encoding `s * 2^23 + m` stands for `m * 2^s` units, also when `m` carries into the exponent. -/
theorem encMag_scaled {s m : Nat} (hm : m ≤ 2 * hid) (hs : s = 0 ∨ hid ≤ m) :
    encMag (s * hid + m) = m * 2 ^ s := by
  have hp := hid_pos
  rcases Nat.lt_or_ge m hid with h | h
  · have : s = 0 := by omega
    subst this; simp [encMag_of_lt h]
  rcases Nat.lt_or_ge m (2 * hid) with h2 | h2
  · have hd : (s * hid + m) / hid = s + 1 := by
      have he : s * hid + m = (m - hid) + (s + 1) * hid := by
        have : (s + 1) * hid = s * hid + hid := by ring
        omega
      rw [he, Nat.add_mul_div_right _ _ hp, Nat.div_eq_of_lt (by omega), Nat.zero_add]
    have hmod : (s * hid + m) % hid = m - hid := by
      have := Nat.div_add_mod (s * hid + m) hid
      rw [hd] at this
      have : hid * (s + 1) = s * hid + hid := by ring
      omega
    simp only [encMag, hd, hmod]
    simp; omega
  · have hm' : m = 2 * hid := by omega
    subst hm'
    have hd : (s * hid + 2 * hid) / hid = s + 2 := by
      rw [show s * hid + 2 * hid = (s + 2) * hid by ring, Nat.mul_div_cancel _ hp]
    have hmod : (s * hid + 2 * hid) % hid = 0 := by
      rw [show s * hid + 2 * hid = (s + 2) * hid by ring, Nat.mul_mod_left]
    simp only [encMag, hd, hmod]
    simp [pow_succ]; ring

theorem encMag_lt_succ (e : Nat) : encMag e < encMag (e + 1) := by
  have hp := hid_pos
  have hdm := Nat.div_add_mod e hid
  have hlt := Nat.mod_lt e hp
  rcases Nat.eq_zero_or_pos (e / hid) with h0 | h0
  · have he : e < hid := by rw [h0] at hdm; omega
    have h1 := encMag_scaled (s := 0) (m := e) (by omega) (Or.inl rfl)
    have h2 := encMag_scaled (s := 0) (m := e + 1) (by omega) (Or.inl rfl)
    simp at h1 h2; omega
  · obtain ⟨s, hs⟩ : ∃ s, e / hid = s + 1 := ⟨e / hid - 1, by omega⟩
    have he : e = s * hid + (hid + e % hid) := by
      rw [hs] at hdm; have : hid * (s + 1) = s * hid + hid := by ring
      omega
    have h1 := encMag_scaled (s := s) (m := hid + e % hid) (by omega) (by right; omega)
    have h2 := encMag_scaled (s := s) (m := hid + e % hid + 1) (by omega) (by right; omega)
    rw [← he] at h1
    rw [← Nat.add_assoc, ← he] at h2
    rw [h1, h2]
    exact Nat.mul_lt_mul_of_pos_right (by omega) (by positivity)

theorem encMag_strictMono : StrictMono encMag := strictMono_nat_of_lt_succ encMag_lt_succ

theorem encMag_le_iff {e e' : Nat} : encMag e ≤ encMag e' ↔ e ≤ e' := encMag_strictMono.le_iff_le

theorem encMag_lt_iff {e e' : Nat} : encMag e < encMag e' ↔ e < e' := encMag_strictMono.lt_iff_lt

/-! ### Rounding -/

/-- The quotient at the rounding scale has at most 24 bits, and exactly 24 when the scale is not 0. -/
theorem roundScale_quotient (num den : Nat) :
    num / (den * 2 ^ roundScale num den) < 2 * hid ∧
      (roundScale num den = 0 ∨ hid ≤ num / (den * 2 ^ roundScale num den)) := by
  rw [← Nat.div_div_eq_div_mul]
  rcases Nat.eq_zero_or_pos (num / den) with h0 | h0
  · simp [roundScale, h0, hid_val]
  have hlo : 2 ^ Nat.log2 (num / den) ≤ num / den := Nat.log2_self_le (by omega)
  have hhi : num / den < 2 ^ (Nat.log2 (num / den) + 1) := Nat.lt_log2_self
  have hh : hid = 2 ^ 23 := rfl
  simp only [roundScale]
  generalize num / den = q at *
  generalize hL : Nat.log2 q = L at *
  rcases Nat.lt_or_ge L 24 with h | h
  · have hz : L - 23 = 0 := by omega
    have : 2 ^ (L + 1) ≤ 2 ^ 24 := Nat.pow_le_pow_right (by omega) (by omega)
    simp [hz]; rw [hh]; omega
  · obtain ⟨s, rfl⟩ : ∃ s, L = s + 23 := ⟨L - 23, by omega⟩
    simp only [Nat.add_sub_cancel]
    constructor
    · rw [Nat.div_lt_iff_lt_mul (by positivity), hh]
      calc q < 2 ^ (s + 23 + 1) := hhi
        _ = 2 * 2 ^ 23 * 2 ^ s := by ring
    · right
      rw [Nat.le_div_iff_mul_le (by positivity), hh]
      calc 2 ^ 23 * 2 ^ s = 2 ^ (s + 23) := by ring
        _ ≤ q := hlo

/-- What rounding does: the exact magnitude lies between two neighbouring encodings, `e` and `e + 1`, and the
nearer one is taken, the even one in a tie. -/
theorem roundEnc_spec {num den : Nat} (hd : 0 < den) :
    ∃ e : Nat, encMag e * den ≤ num ∧ num < encMag (e + 1) * den ∧
      roundEnc num den = min (if 2 * num > (encMag e + encMag (e + 1)) * den ∨
        (2 * num = (encMag e + encMag (e + 1)) * den ∧ e % 2 = 1) then e + 1 else e) infEnc := by
  obtain ⟨hn, hs⟩ := roundScale_quotient num den
  have hD : 0 < den * 2 ^ roundScale num den := by positivity
  have hdm := Nat.div_add_mod num (den * 2 ^ roundScale num den)
  have hr := Nat.mod_lt num hD
  simp only [roundEnc]
  generalize roundScale num den = s at *
  generalize hn' : num / (den * 2 ^ s) = n at *
  generalize num % (den * 2 ^ s) = r at *
  refine ⟨s * hid + n, ?_, ?_, ?_⟩
  · rw [encMag_scaled (by omega) (by omega)]
    calc n * 2 ^ s * den = den * 2 ^ s * n := by ring
      _ ≤ num := by omega
  · rw [Nat.add_assoc, encMag_scaled (by omega) (by omega)]
    calc num < den * 2 ^ s * n + den * 2 ^ s := by omega
      _ = (n + 1) * 2 ^ s * den := by ring
  · have e1 : encMag (s * hid + n) = n * 2 ^ s := encMag_scaled (by omega) (by omega)
    have e2 : encMag (s * hid + n + 1) = (n + 1) * 2 ^ s := by
      rw [Nat.add_assoc, encMag_scaled (by omega) (by omega)]
    have hsum : (encMag (s * hid + n) + encMag (s * hid + n + 1)) * den
        = 2 * (den * 2 ^ s * n) + den * 2 ^ s := by rw [e1, e2]; ring
    have hpar : (s * hid + n) % 2 = n % 2 := by
      have : s * hid = 2 * (s * 4194304) := by rw [hid_val]; ring
      omega
    rw [hsum, hpar]
    congr 1
    have c1 : (2 * num > 2 * (den * 2 ^ s * n) + den * 2 ^ s) ↔ 2 * r > den * 2 ^ s := by omega
    have c2 : (2 * num = 2 * (den * 2 ^ s * n) + den * 2 ^ s) ↔ 2 * r = den * 2 ^ s := by omega
    simp only [c1, c2]
    generalize s * hid = a
    split <;> omega

theorem roundEnc_le_infEnc (num den : Nat) : roundEnc num den ≤ infEnc := min_le_right _ _

/-- An exact magnitude at most a representable one is rounded to at most it. -/
theorem roundEnc_le {num den e : Nat} (hd : 0 < den) (h : num ≤ encMag e * den) : roundEnc num den ≤ e := by
  obtain ⟨e', h1, h2, h3⟩ := roundEnc_spec (num := num) hd
  have hle : e' ≤ e := by
    rw [← encMag_le_iff]; exact Nat.le_of_mul_le_mul_right (le_trans h1 h) hd
  rw [h3]
  refine le_trans (min_le_left _ _) ?_
  split
  · rcases Nat.lt_or_ge e' e with h' | h'
    · exact h'
    · have : e' = e := by omega
      subst this
      have hlt : encMag e' * den < encMag (e' + 1) * den := by omega
      have : (encMag e' + encMag (e' + 1)) * den = encMag e' * den + encMag (e' + 1) * den := by ring
      omega
  · exact hle

/-- An exact magnitude at least a representable one is rounded to at least it. -/
theorem le_roundEnc {num den e : Nat} (hd : 0 < den) (he : e ≤ infEnc) (h : encMag e * den ≤ num) :
    e ≤ roundEnc num den := by
  obtain ⟨e', h1, h2, h3⟩ := roundEnc_spec (num := num) hd
  have hle : e < e' + 1 := by
    rw [← encMag_lt_iff]; exact Nat.lt_of_mul_lt_mul_right (lt_of_le_of_lt h h2)
  rw [h3]
  refine le_min ?_ he
  split <;> omega

/-- A representable magnitude is rounded to itself. -/
theorem roundEnc_exact {num den e : Nat} (hd : 0 < den) (he : e ≤ infEnc) (h : num = encMag e * den) :
    roundEnc num den = e :=
  le_antisymm (roundEnc_le hd (le_of_eq h)) (le_roundEnc hd he (le_of_eq h.symm))

/-- Rounding keeps the order of the exact magnitudes. -/
theorem roundEnc_mono {n₁ d₁ n₂ d₂ : Nat} (h₁ : 0 < d₁) (h₂ : 0 < d₂) (h : n₁ * d₂ ≤ n₂ * d₁) :
    roundEnc n₁ d₁ ≤ roundEnc n₂ d₂ := by
  obtain ⟨e, a1, a2, a3⟩ := roundEnc_spec (num := n₁) h₁
  obtain ⟨f, b1, b2, b3⟩ := roundEnc_spec (num := n₂) h₂
  have hef : e ≤ f := by
    have : encMag e * d₁ * d₂ < encMag (f + 1) * d₁ * d₂ := by
      calc encMag e * d₁ * d₂ ≤ n₁ * d₂ := Nat.mul_le_mul_right _ a1
        _ ≤ n₂ * d₁ := h
        _ < encMag (f + 1) * d₂ * d₁ := Nat.mul_lt_mul_of_pos_right b2 h₁
        _ = encMag (f + 1) * d₁ * d₂ := by ring
    have := encMag_lt_iff.mp (Nat.lt_of_mul_lt_mul_right (Nat.lt_of_mul_lt_mul_right this))
    omega
  rw [a3, b3]
  refine min_le_min_right _ ?_
  rcases Nat.lt_or_ge e f with hlt | hge
  · split <;> split <;> omega
  · have : e = f := by omega
    subst this
    generalize hM : encMag e + encMag (e + 1) = M at *
    by_cases hA : 2 * n₁ > M * d₁ ∨ (2 * n₁ = M * d₁ ∧ e % 2 = 1)
    · have hB : 2 * n₂ > M * d₂ ∨ (2 * n₂ = M * d₂ ∧ e % 2 = 1) := by
        rcases hA with hA | ⟨hA, hp⟩
        · left
          have : M * d₂ * d₁ < 2 * n₂ * d₁ := by
            calc M * d₂ * d₁ = M * d₁ * d₂ := by ring
              _ < 2 * n₁ * d₂ := Nat.mul_lt_mul_of_pos_right hA h₂
              _ = 2 * (n₁ * d₂) := by ring
              _ ≤ 2 * (n₂ * d₁) := by omega
              _ = 2 * n₂ * d₁ := by ring
          exact Nat.lt_of_mul_lt_mul_right this
        · have : M * d₂ * d₁ ≤ 2 * n₂ * d₁ := by
            calc M * d₂ * d₁ = M * d₁ * d₂ := by ring
              _ = 2 * n₁ * d₂ := by rw [hA]
              _ = 2 * (n₁ * d₂) := by ring
              _ ≤ 2 * (n₂ * d₁) := by omega
              _ = 2 * n₂ * d₁ := by ring
          have := Nat.le_of_mul_le_mul_right this h₁
          omega
      rw [if_pos hA, if_pos hB]
    · rw [if_neg hA]; split <;> omega

/-- Rounding takes the nearest representable magnitude, and in a tie the even one. -/
theorem roundEnc_nearest {num den : Nat} (hd : 0 < den) (h : roundEnc num den < infEnc) (z : Nat) :
    |(num : Int) - encMag (roundEnc num den) * den| ≤ |(num : Int) - encMag z * den| ∧
    (|(num : Int) - encMag (roundEnc num den) * den| = |(num : Int) - encMag z * den| →
      encMag (roundEnc num den) = encMag z ∨ roundEnc num den % 2 = 0) := by
  obtain ⟨e, h1, h2, h3⟩ := roundEnc_spec (num := num) hd
  have hz : encMag z * den ≤ encMag e * den ∨ encMag (e + 1) * den ≤ encMag z * den := by
    rcases Nat.lt_or_ge e z with hl | hl
    · right; exact Nat.mul_le_mul_right _ (encMag_le_iff.mpr hl)
    · left; exact Nat.mul_le_mul_right _ (encMag_le_iff.mpr hl)
  have hzeq : ∀ y, encMag z * den = encMag y * den → encMag y = encMag z := fun y hy =>
    (Nat.eq_of_mul_eq_mul_right hd hy).symm
  have hzA := hzeq e
  have hzB := hzeq (e+1)
  have hsum : (encMag e + encMag (e+1)) * den = encMag e * den + encMag (e+1) * den := by ring
  rw [hsum] at h3
  have hr : roundEnc num den = if 2 * num > encMag e * den + encMag (e+1) * den ∨ (2 * num = encMag e * den + encMag (e+1) * den ∧ e % 2 = 1) then e + 1 else e := by
    rw [h3] at h ⊢; exact min_eq_left (by omega)
  clear h3
  have hc : ∀ y : Nat, ((encMag y : Int) * (den : Int)) = ((encMag y * den : Nat) : Int) := by intro y; push_cast; ring
  rw [hc, hc]
  by_cases hp : 2 * num > encMag e * den + encMag (e+1) * den ∨ (2 * num = encMag e * den + encMag (e+1) * den ∧ e % 2 = 1)
  · rw [if_pos hp] at hr
    rw [hr]
    generalize hA : encMag e * den = A
    generalize hB : encMag (e+1) * den = B
    generalize hZ : encMag z * den = Z
    rw [hA, hB, hZ] at hz
    rw [hA] at h1
    rw [hB] at h2
    rw [hA, hB] at hp
    rw [hZ, hA] at hzA
    rw [hZ, hB] at hzB
    clear hsum
    have ha : |(num : Int) - (B : Nat)| = (B : Int) - num := by rw [abs_of_nonpos (by omega)]; omega
    rw [ha]
    rcases abs_cases ((num : Int) - (Z : Nat)) with ⟨hb, hb2⟩ | ⟨hb, hb2⟩ <;> rw [hb] <;> refine ⟨by omega, fun he => ?_⟩
    · right; omega
    · left; exact hzB (by omega)
  · rw [if_neg hp] at hr
    rw [hr]
    generalize hA : encMag e * den = A
    generalize hB : encMag (e+1) * den = B
    generalize hZ : encMag z * den = Z
    rw [hA, hB, hZ] at hz
    rw [hA] at h1
    rw [hB] at h2
    rw [hA, hB] at hp
    rw [hZ, hA] at hzA
    rw [hZ, hB] at hzB
    clear hsum
    have ha : |(num : Int) - (A : Nat)| = (num : Int) - A := by rw [abs_of_nonneg (by omega)]
    rw [ha]
    rcases abs_cases ((num : Int) - (Z : Nat)) with ⟨hb, hb2⟩ | ⟨hb, hb2⟩ <;> rw [hb] <;> refine ⟨by omega, fun he => ?_⟩
    · left; exact hzA (by omega)
    · right; omega

theorem roundEnc_inf_iff_aux {num den I e R : Nat} (hI1 : 1 ≤ I) (hodd : (I - 1) % 2 = 1)
    (h1 : encMag e * den ≤ num) (h2 : num < encMag (e + 1) * den)
    (h3 : R = min (if 2 * num > (encMag e + encMag (e + 1)) * den ∨
      (2 * num = (encMag e + encMag (e + 1)) * den ∧ e % 2 = 1) then e + 1 else e) I) :
    R = I ↔ (encMag (I - 1) + encMag I) * den ≤ 2 * num := by
  subst h3
  have hs : ∀ y z, (encMag y + encMag z) * den = encMag y * den + encMag z * den := by intro y z; ring
  simp only [hs]
  rcases Nat.lt_trichotomy e (I - 1) with hl | hl | hl
  · have hm : encMag (e + 1) * den ≤ encMag (I - 1) * den := Nat.mul_le_mul_right _ (encMag_le_iff.mpr (by omega))
    have hm2 : encMag (I - 1) * den ≤ encMag I * den := Nat.mul_le_mul_right _ (encMag_le_iff.mpr (by omega))
    constructor
    · intro h; split at h <;> omega
    · intro h; omega
  · have e1 : e + 1 = I := by omega
    rw [e1] at h2 ⊢
    rw [hl]
    constructor
    · intro h; by_contra hc
      rw [if_neg (by omega)] at h; omega
    · intro h
      rw [if_pos (by omega)]; omega
  · have hm : encMag I * den ≤ encMag e * den := Nat.mul_le_mul_right _ (encMag_le_iff.mpr (by omega))
    have hm2 : encMag (I - 1) * den ≤ encMag I * den := Nat.mul_le_mul_right _ (encMag_le_iff.mpr (by omega))
    constructor
    · intro h; omega
    · intro h; split <;> omega

/-- Rounding overflows from the middle between the largest finite magnitude and 2^128 on. -/
theorem roundEnc_inf_iff {num den : Nat} (hd : 0 < den) :
    roundEnc num den = infEnc ↔ (encMag (infEnc - 1) + encMag infEnc) * den ≤ 2 * num := by
  obtain ⟨e, h1, h2, h3⟩ := roundEnc_spec (num := num) hd
  exact roundEnc_inf_iff_aux (by rw [infEnc_val]; omega) (by rw [infEnc_val]) h1 h2 h3

/-! ### Packing -/

theorem fPack_toNat {neg : Bool} {e : Nat} (h : e < signBit) :
    (fPack neg e).toNat = (if neg then signBit else 0) + e := by
  rw [signBit_val] at h
  simp only [fPack, BitVec.toNat_ofNat, signBit_val, width_val]
  split <;> omega

theorem fEnc_pack {neg : Bool} {e : Nat} (h : e < signBit) : fEnc (fPack neg e) = e := by
  rw [fEnc, fPack_toNat h]
  rw [signBit_val] at *
  split <;> omega

theorem fNeg_pack {neg : Bool} {e : Nat} (h : e < signBit) : fNeg (fPack neg e) = neg := by
  rw [fNeg, fPack_toNat h]
  rw [signBit_val] at *
  cases neg
  · simp; omega
  · simp

theorem fEnc_lt (a : F) : fEnc a < signBit := Nat.mod_lt _ (by decide)

/-- A pattern is its sign and its encoding. -/
theorem fPack_fNeg_fEnc (a : F) : fPack (fNeg a) (fEnc a) = a := by
  apply BitVec.eq_of_toNat_eq
  rw [fPack_toNat (fEnc_lt a)]
  have := pattern_lt a
  simp only [fNeg, fEnc, signBit_val]
  by_cases h : 2147483648 ≤ a.toNat <;> simp [h] <;> omega

theorem roundEnc_lt_signBit (num den : Nat) : roundEnc num den < signBit :=
  lt_of_le_of_lt (roundEnc_le_infEnc num den) (by decide)

@[simp] theorem fEnc_roundPack (neg : Bool) (num den : Nat) :
    fEnc (roundPack neg num den) = roundEnc num den := fEnc_pack (roundEnc_lt_signBit _ _)

@[simp] theorem fNeg_roundPack (neg : Bool) (num den : Nat) :
    fNeg (roundPack neg num den) = neg := fNeg_pack (roundEnc_lt_signBit _ _)

@[simp] theorem fIsNaN_roundPack (neg : Bool) (num den : Nat) :
    fIsNaN (roundPack neg num den) = false := by
  simp only [fIsNaN, fEnc_roundPack, decide_eq_false_iff_not, not_lt]
  exact roundEnc_le_infEnc _ _

/-- The value of a rounded result. -/
theorem fVal_roundPack (neg : Bool) (num den : Nat) :
    fVal (roundPack neg num den)
      = if neg then -(encMag (roundEnc num den) : Int) else (encMag (roundEnc num den) : Int) := by
  simp [fVal, fMag]

end Sys2Proof.Machine
end

