-- ==== Sys2Proof/Laws/Arith.lean ====
section
/-!
SUPPORT. The operations on finite operands, and the ranges of the values a `SAMPLE` derives from legal cells.
-/

namespace Sys2Proof.Machine

/-! ### Classes -/

theorem not_isNaN_of_finite {a : F} (h : fIsFinite a = true) : fIsNaN a = false := by
  simp only [fIsFinite, fIsNaN, decide_eq_true_eq, decide_eq_false_iff_not] at *; omega

theorem not_isInf_of_finite {a : F} (h : fIsFinite a = true) : fIsInf a = false := by
  simp only [fIsFinite, fIsInf, decide_eq_true_eq, decide_eq_false_iff_not] at *; omega

theorem finite_of_not {a : F} (h : fIsNaN a = false) (h' : fIsInf a = false) : fIsFinite a = true := by
  simp only [fIsFinite, fIsNaN, fIsInf, decide_eq_true_eq, decide_eq_false_iff_not] at *; omega

theorem not_isNaN_of_isInf {a : F} (h : fIsInf a = true) : fIsNaN a = false := by
  simp only [fIsInf, fIsNaN, decide_eq_true_eq, decide_eq_false_iff_not] at *; omega

theorem not_finite_of_isInf {a : F} (h : fIsInf a = true) : fIsFinite a = false := by
  simp only [fIsInf, fIsFinite, decide_eq_true_eq, decide_eq_false_iff_not] at *; omega

theorem fVal_natAbs (a : F) : (fVal a).natAbs = fMag a := by simp only [fVal]; split <;> simp

theorem fMag_eq_zero_iff (a : F) : fMag a = 0 ↔ fVal a = 0 := by
  rw [← fVal_natAbs]; exact Int.natAbs_eq_zero

theorem fMag_eq_zero_iff_enc (a : F) : fMag a = 0 ↔ fEnc a = 0 := by
  constructor
  · intro h
    by_contra hne
    have : encMag 0 < encMag (fEnc a) := encMag_lt_iff.mpr (by omega)
    simp only [fMag] at h; omega
  · intro h; simp [fMag, h, encMag]

theorem fMag_le_iff {a b : F} : fMag a ≤ fMag b ↔ fEnc a ≤ fEnc b := encMag_le_iff

/-- A pattern that is no NaN and whose magnitude is that of some finite encoding is finite. -/
theorem finite_of_mag_le {a b : F} (hb : fIsFinite b = true) (h : fMag a ≤ fMag b) : fIsFinite a = true := by
  simp only [fIsFinite, decide_eq_true_eq] at *
  have := fMag_le_iff.mp h; omega

theorem fEnc_flip (a : F) : fEnc (fFlip a) = fEnc a := fEnc_pack (fEnc_lt a)

theorem fNeg_flip (a : F) : fNeg (fFlip a) = !fNeg a := fNeg_pack (fEnc_lt a)

theorem fVal_flip (a : F) : fVal (fFlip a) = -fVal a := by
  simp only [fVal, fMag, fEnc_flip, fNeg_flip]
  cases fNeg a <;> simp

theorem finite_flip {a : F} : fIsFinite (fFlip a) = fIsFinite a := by simp [fIsFinite, fEnc_flip]

/-! ### The operations on finite operands -/

theorem fmul_finite (q : F) {a b : F} (ha : fIsFinite a = true) (hb : fIsFinite b = true) :
    fmul q a b = roundPack (xor (fNeg a) (fNeg b)) (fMag a * fMag b) unit := by
  simp [fmul, not_isNaN_of_finite ha, not_isNaN_of_finite hb, not_isInf_of_finite ha, not_isInf_of_finite hb]

theorem fdiv_finite (q : F) {a b : F} (ha : fIsFinite a = true) (hb : fIsFinite b = true) (h0 : fMag b ≠ 0) :
    fdiv q a b = roundPack (xor (fNeg a) (fNeg b)) (fMag a * unit) (fMag b) := by
  simp [fdiv, not_isNaN_of_finite ha, not_isNaN_of_finite hb, not_isInf_of_finite ha, not_isInf_of_finite hb, h0]

theorem fadd_finite (q : F) {a b : F} (ha : fIsFinite a = true) (hb : fIsFinite b = true)
    (h0 : fVal a + fVal b ≠ 0) :
    fadd q a b = roundPack (decide (fVal a + fVal b < 0)) (fVal a + fVal b).natAbs 1 := by
  simp [fadd, not_isNaN_of_finite ha, not_isNaN_of_finite hb, not_isInf_of_finite ha, not_isInf_of_finite hb, h0]

theorem fadd_finite_zero (q : F) {a b : F} (ha : fIsFinite a = true) (hb : fIsFinite b = true)
    (h0 : fVal a + fVal b = 0) : fadd q a b = fPack (fNeg a && fNeg b) 0 := by
  simp [fadd, not_isNaN_of_finite ha, not_isNaN_of_finite hb, not_isInf_of_finite ha, not_isInf_of_finite hb, h0]

theorem fsub_finite (q : F) {a b : F} (ha : fIsFinite a = true) (hb : fIsFinite b = true) :
    fsub q a b = fadd q a (fFlip b) := by
  simp [fsub, not_isNaN_of_finite ha, not_isNaN_of_finite hb]

theorem fVal_pack_zero (neg : Bool) : fVal (fPack neg 0) = 0 := by
  have h : fEnc (fPack neg 0) = 0 := fEnc_pack (by decide)
  have : fMag (fPack neg 0) = 0 := (fMag_eq_zero_iff_enc _).mpr h
  exact (fMag_eq_zero_iff _).mp this

/-- The value of a finite sum is the exact sum rounded. -/
theorem fVal_fadd (q : F) {a b : F} (ha : fIsFinite a = true) (hb : fIsFinite b = true) :
    fVal (fadd q a b) = (fVal a + fVal b).sign * (encMag (roundEnc (fVal a + fVal b).natAbs 1) : Int) := by
  by_cases h0 : fVal a + fVal b = 0
  · rw [fadd_finite_zero q ha hb h0, fVal_pack_zero, h0]; simp
  · rw [fadd_finite q ha hb h0, fVal_roundPack]
    rcases lt_or_gt_of_ne h0 with h | h
    · simp [h, Int.sign_eq_neg_one_of_neg h]
    · have hn : ¬ fVal a + fVal b < 0 := by omega
      simp [hn, Int.sign_eq_one_of_pos h]

theorem fIsNaN_fadd (q : F) {a b : F} (ha : fIsFinite a = true) (hb : fIsFinite b = true) :
    fIsNaN (fadd q a b) = false := by
  by_cases h0 : fVal a + fVal b = 0
  · rw [fadd_finite_zero q ha hb h0, fIsNaN, fEnc_pack (by decide)]; simp
  · rw [fadd_finite q ha hb h0]; simp

theorem fEnc_fadd (q : F) {a b : F} (ha : fIsFinite a = true) (hb : fIsFinite b = true) :
    fEnc (fadd q a b) = roundEnc (fVal a + fVal b).natAbs 1 := by
  by_cases h0 : fVal a + fVal b = 0
  · rw [fadd_finite_zero q ha hb h0, fEnc_pack (by decide), h0]
    exact (roundEnc_exact (by omega) (by omega) (by decide)).symm
  · rw [fadd_finite q ha hb h0]; simp

/-! ### Signs of results on finite operands -/

theorem fNeg_fadd (q : F) {a b : F} (ha : fIsFinite a = true) (hb : fIsFinite b = true) :
    fNeg (fadd q a b)
      = if fVal a + fVal b = 0 then fNeg a && fNeg b else decide (fVal a + fVal b < 0) := by
  by_cases h0 : fVal a + fVal b = 0
  · rw [fadd_finite_zero q ha hb h0, if_pos h0, fNeg_pack (by decide)]
  · rw [fadd_finite q ha hb h0, if_neg h0, fNeg_roundPack]

theorem fNeg_fsub (q : F) {a b : F} (ha : fIsFinite a = true) (hb : fIsFinite b = true) :
    fNeg (fsub q a b) = if fVal a - fVal b = 0 then fNeg a && !fNeg b else decide (fVal a < fVal b) := by
  rw [fsub_finite q ha hb, fNeg_fadd q ha (by rw [finite_flip]; exact hb), fVal_flip, fNeg_flip,
    ← Int.sub_eq_add_neg]
  simp only [sub_neg]

theorem fNeg_fmul (q : F) {a b : F} (ha : fIsFinite a = true) (hb : fIsFinite b = true) :
    fNeg (fmul q a b) = xor (fNeg a) (fNeg b) := by rw [fmul_finite q ha hb, fNeg_roundPack]

theorem fNeg_fdiv (q : F) {a b : F} (ha : fIsFinite a = true) (hb : fIsFinite b = true) (h0 : fVal b ≠ 0) :
    fNeg (fdiv q a b) = xor (fNeg a) (fNeg b) := by
  rw [fdiv_finite q ha hb fun h => h0 ((fMag_eq_zero_iff b).mp h), fNeg_roundPack]

theorem roundEnc_self {e : Nat} (h : e ≤ infEnc) : roundEnc (encMag e) 1 = e :=
  roundEnc_exact (by omega) h (by omega)

theorem roundEnc_mul_unit {e : Nat} (h : e ≤ infEnc) : roundEnc (encMag e * unit) unit = e :=
  roundEnc_exact unit_pos h rfl

theorem roundEnc_zero {den : Nat} (h : 0 < den) : roundEnc 0 den = 0 :=
  roundEnc_exact h (by omega) (by simp [encMag])

/-! ### NaN results: which NaN is delivered does not spread -/

theorem fEnc_quietNaN (k : Nat) : infEnc + hid / 2 ≤ fEnc (quietNaN k) ∧ infEnc < fEnc (quietNaN k) := by
  have h := Nat.mod_lt (Config.freeNaN k).toNat (y := hid / 2) (by rw [hid_val]; omega)
  have hlt : infEnc + hid / 2 + (Config.freeNaN k).toNat % (hid / 2) < signBit := by
    rw [infEnc_val, signBit_val]; rw [hid_val] at *; omega
  rw [quietNaN, fEnc_pack hlt, hid_val]
  omega

theorem isNaN_quietNaN (k : Nat) : fIsNaN (quietNaN k) = true := by
  simp only [fIsNaN, decide_eq_true_eq, (fEnc_quietNaN k).2]

theorem isQuietNaN_quietNaN (k : Nat) : fIsQuietNaN (quietNaN k) = true := by
  simp only [fIsQuietNaN, decide_eq_true_eq, (fEnc_quietNaN k).1]

/-- The same value up to which NaN a NaN is. -/
def SameUpToNaN (a b : F) : Prop := a = b ∨ (fIsNaN a = true ∧ fIsNaN b = true)

theorem SameUpToNaN.refl (a : F) : SameUpToNaN a a := .inl rfl

/-- Two values that agree up to NaNs are equal, or both NaN. -/
theorem SameUpToNaN.cases {a b : F} (h : SameUpToNaN a b) :
    (fIsNaN a = true ∧ fIsNaN b = true) ∨ (fIsNaN a = false ∧ a = b) := by
  rcases h with rfl | h
  · cases hn : fIsNaN a
    · exact .inr ⟨rfl, rfl⟩
    · exact .inl ⟨rfl, rfl⟩
  · exact .inl h

theorem fadd_same {q q' a a' b b' : F} (hq : fIsNaN q = true) (hq' : fIsNaN q' = true)
    (ha : SameUpToNaN a a') (hb : SameUpToNaN b b') : SameUpToNaN (fadd q a b) (fadd q' a' b') := by
  rcases ha.cases with ⟨h1, h2⟩ | ⟨h1, rfl⟩
  · exact .inr ⟨by simp [fadd, h1, hq], by simp [fadd, h2, hq']⟩
  rcases hb.cases with ⟨h3, h4⟩ | ⟨h3, rfl⟩
  · exact .inr ⟨by simp [fadd, h3, hq], by simp [fadd, h4, hq']⟩
  simp only [fadd, h1, h3]
  split
  · rename_i h; simp at h
  · split
    · split
      · exact .refl _
      · exact .inr ⟨hq, hq'⟩
    · exact .refl _

theorem fsub_same {q q' a a' b b' : F} (hq : fIsNaN q = true) (hq' : fIsNaN q' = true)
    (ha : SameUpToNaN a a') (hb : SameUpToNaN b b') : SameUpToNaN (fsub q a b) (fsub q' a' b') := by
  rcases ha.cases with ⟨h1, h2⟩ | ⟨h1, rfl⟩
  · exact .inr ⟨by simp [fsub, h1, hq], by simp [fsub, h2, hq']⟩
  rcases hb.cases with ⟨h3, h4⟩ | ⟨h3, rfl⟩
  · exact .inr ⟨by simp [fsub, h3, hq], by simp [fsub, h4, hq']⟩
  simp only [fsub, h1, h3, Bool.or_self, Bool.false_eq_true, if_false]
  exact fadd_same hq hq' (.refl _) (.refl _)

theorem fmul_same {q q' a a' b b' : F} (hq : fIsNaN q = true) (hq' : fIsNaN q' = true)
    (ha : SameUpToNaN a a') (hb : SameUpToNaN b b') : SameUpToNaN (fmul q a b) (fmul q' a' b') := by
  rcases ha.cases with ⟨h1, h2⟩ | ⟨h1, rfl⟩
  · exact .inr ⟨by simp [fmul, h1, hq], by simp [fmul, h2, hq']⟩
  rcases hb.cases with ⟨h3, h4⟩ | ⟨h3, rfl⟩
  · exact .inr ⟨by simp [fmul, h3, hq], by simp [fmul, h4, hq']⟩
  have key : ∀ (i : Bool) (z : Prop) [Decidable z] (u v : F),
      SameUpToNaN (if i then (if z then q else u) else v) (if i then (if z then q' else u) else v) := by
    intro i z _ u v
    split
    · split
      · exact .inr ⟨hq, hq'⟩
      · exact .refl _
    · exact .refl _
  simp only [fmul, h1, h3, Bool.or_self, Bool.false_eq_true, if_false]
  exact key _ _ _ _

theorem fdiv_same {q q' a a' b b' : F} (hq : fIsNaN q = true) (hq' : fIsNaN q' = true)
    (ha : SameUpToNaN a a') (hb : SameUpToNaN b b') : SameUpToNaN (fdiv q a b) (fdiv q' a' b') := by
  rcases ha.cases with ⟨h1, h2⟩ | ⟨h1, rfl⟩
  · exact .inr ⟨by simp [fdiv, h1, hq], by simp [fdiv, h2, hq']⟩
  rcases hb.cases with ⟨h3, h4⟩ | ⟨h3, rfl⟩
  · exact .inr ⟨by simp [fdiv, h3, hq], by simp [fdiv, h4, hq']⟩
  simp only [fdiv, h1, h3]
  split
  · rename_i h; simp at h
  · split
    · split
      · exact .inr ⟨hq, hq'⟩
      · exact .refl _
    · split
      · exact .refl _
      · split
        · split
          · exact .inr ⟨hq, hq'⟩
          · exact .refl _
        · exact .refl _

theorem f2iTrunc_same {a b : F} (h : SameUpToNaN a b) : f2iTrunc a = f2iTrunc b := by
  rcases h.cases with ⟨h1, h2⟩ | ⟨-, rfl⟩
  · simp [f2iTrunc, h1, h2]
  · rfl

/-- A result that is no NaN does not depend on the draw. -/
theorem SameUpToNaN.eq_of_not {a b : F} (h : SameUpToNaN a b) (hn : fIsNaN a = false) : a = b := by
  rcases h.cases with ⟨h1, -⟩ | ⟨-, e⟩
  · rw [hn] at h1; cases h1
  · exact e

/-! ### Constants: the patterns of rule R48 -/

theorem config_patterns : Config.ZERO = 0x00000000#32 ∧ Config.ONE = 0x3F800000#32 ∧
    Config.AMP_SCALE = 0x40800000#32 ∧ Config.WIN_STEPS = 0x42000000#32 ∧
    Config.DEPTH_SCALE = 0x437F0000#32 ∧ Config.F_EMU = 0x47017800#32 := by decide

theorem one_facts : fIsFinite 0x3F800000#32 = true ∧ fNeg 0x3F800000#32 = false ∧ fMag 0x3F800000#32 = unit ∧
    fEnc 0x3F800000#32 = 1065353216 ∧ encMag 1065353216 = unit := by decide

theorem fVal_one : fVal 0x3F800000#32 = (unit : Int) := by decide

theorem four_facts : fIsFinite 0x40800000#32 = true ∧ fNeg 0x40800000#32 = false ∧
    fMag 0x40800000#32 = 4 * unit := by decide

theorem depthScale_facts : fIsFinite 0x437F0000#32 = true ∧ fNeg 0x437F0000#32 = false ∧
    fMag 0x437F0000#32 = 255 * unit := by decide

theorem winSteps_facts : fIsFinite 0x42000000#32 = true ∧ fNeg 0x42000000#32 = false ∧
    fMag 0x42000000#32 = 32 * unit := by decide

theorem emu_facts : fIsFinite 0x47017800#32 = true ∧ fNeg 0x47017800#32 = false ∧
    fMag 0x47017800#32 = 33144 * unit := by decide

theorem zero_facts : fIsFinite 0x00000000#32 = true ∧ fNeg 0x00000000#32 = false ∧
    fMag 0x00000000#32 = 0 := by decide

/-! ### Values in [0,1] -/

theorem inUnit_iff {a : F} : inUnit a = true ↔
    fIsNaN a = false ∧ 0 ≤ fVal a ∧ fVal a ≤ (unit : Int) := by
  simp [inUnit, and_assoc]

theorem inUnit_mag {a : F} (h : inUnit a = true) : fMag a ≤ unit := by
  have := (inUnit_iff.mp h).2
  rw [← fVal_natAbs]; omega

theorem inUnit_finite {a : F} (h : inUnit a = true) : fIsFinite a = true :=
  finite_of_mag_le one_facts.1 (by rw [one_facts.2.2.1]; exact inUnit_mag h)

theorem inUnit_val {a : F} (h : inUnit a = true) : fVal a = (fMag a : Int) := by
  have := (inUnit_iff.mp h).2.1
  have h2 := fVal_natAbs a
  omega

theorem inUnit_neg {a : F} (h : inUnit a = true) (hn : fNeg a = true) : fMag a = 0 := by
  have := inUnit_val h
  simp only [fVal, hn, if_true] at this
  omega

/-! ### Zeros, infinities and factors of at most 1.0 -/

theorem zero_finite {a : F} (h : fVal a = 0) : fIsFinite a = true := by
  have := (fMag_eq_zero_iff_enc a).mp ((fMag_eq_zero_iff a).mpr h)
  simp only [fIsFinite, this, decide_eq_true_eq]; rw [infEnc_val]; omega

theorem isInf_mag {a : F} (h : fIsInf a = true) : fMag a ≠ 0 := by
  intro h0
  have := (fMag_eq_zero_iff_enc a).mp h0
  simp only [fIsInf, decide_eq_true_eq] at h
  rw [this] at h; rw [infEnc_val] at h; omega

/-- Rounding a representable pattern gives it back. -/
theorem roundPack_self {a : F} {num den : Nat} (hn : fIsNaN a = false) (hd : 0 < den)
    (h : num = fMag a * den) : roundPack (fNeg a) num den = a := by
  have he : fEnc a ≤ infEnc := by
    simp only [fIsNaN, decide_eq_false_iff_not] at hn; omega
  rw [roundPack, roundEnc_exact hd he h, fPack_fNeg_fEnc]

theorem isInf_pack (neg : Bool) : fIsInf (fPack neg infEnc) = true := by
  rw [fIsInf, fEnc_pack (by rw [infEnc_val, signBit_val]; omega)]; simp

theorem fNeg_pack_inf (neg : Bool) : fNeg (fPack neg infEnc) = neg :=
  fNeg_pack (by rw [infEnc_val, signBit_val]; omega)

theorem isInf_eq {a : F} (h : fIsInf a = true) : a = fPack (fNeg a) infEnc := by
  simp only [fIsInf, decide_eq_true_eq] at h
  rw [← h, fPack_fNeg_fEnc]

/-- An infinity times a non-zero value. -/
theorem fmul_inf (q : F) {a b : F} (ha : fIsInf a = true) (hb : fIsNaN b = false) (h0 : fVal b ≠ 0) :
    fmul q a b = fPack (xor (fNeg a) (fNeg b)) infEnc := by
  have h1 : fMag b ≠ 0 := fun e => h0 ((fMag_eq_zero_iff b).mp e)
  have h2 := isInf_mag ha
  simp [fmul, not_isNaN_of_isInf ha, hb, ha, h1, h2]

/-- A finite value times an infinity's factor 0.0. -/
theorem fmul_inf_zero (q : F) {a b : F} (ha : fIsInf a = true) (hb : fVal b = 0) : fmul q a b = q := by
  have h1 := (fMag_eq_zero_iff b).mpr hb
  simp [fmul, not_isNaN_of_isInf ha, not_isNaN_of_finite (zero_finite hb), ha, h1]

/-- An infinity divided by a finite value. -/
theorem fdiv_inf (q : F) {a b : F} (ha : fIsInf a = true) (hb : fIsFinite b = true) :
    fdiv q a b = fPack (xor (fNeg a) (fNeg b)) infEnc := by
  simp [fdiv, not_isNaN_of_isInf ha, not_isNaN_of_finite hb, not_isInf_of_finite hb, ha]

/-- A finite value divided by an infinity is a zero. -/
theorem fdiv_by_inf (q : F) {a b : F} (ha : fIsFinite a = true) (hb : fIsInf b = true) :
    fdiv q a b = fPack (xor (fNeg a) (fNeg b)) 0 := by
  simp [fdiv, not_isNaN_of_finite ha, not_isInf_of_finite ha, not_isNaN_of_isInf hb, hb]

/-- An infinity plus a finite value. -/
theorem fadd_inf (q : F) {a b : F} (ha : fIsInf a = true) (hb : fIsFinite b = true) :
    fadd q a b = a ∧ fadd q b a = a := by
  simp [fadd, not_isNaN_of_isInf ha, ha, not_isNaN_of_finite hb, not_isInf_of_finite hb]

/-- Two infinities of one sign. -/
theorem fadd_inf_inf (q : F) {a b : F} (ha : fIsInf a = true) (hb : fIsInf b = true)
    (h : fNeg a = fNeg b) : fadd q a b = a := by
  simp [fadd, not_isNaN_of_isInf ha, ha, not_isNaN_of_isInf hb, hb, h]

theorem fdiv_zero (q : F) {a b : F} (ha : fIsFinite a = true) (h : fVal a ≠ 0) (hb : fVal b = 0) :
    fdiv q a b = fPack (xor (fNeg a) (fNeg b)) infEnc := by
  have h1 := (fMag_eq_zero_iff b).mpr hb
  have h2 : fMag a ≠ 0 := fun e => h ((fMag_eq_zero_iff a).mp e)
  simp only [fdiv, not_isNaN_of_finite ha, not_isNaN_of_finite (zero_finite hb), not_isInf_of_finite ha,
    not_isInf_of_finite (zero_finite hb), h1, h2, Bool.or_self, Bool.false_eq_true, if_false, if_true]

theorem fdiv_zero_zero (q : F) {a b : F} (h : fVal a = 0) (hb : fVal b = 0) : fdiv q a b = q := by
  have h1 := (fMag_eq_zero_iff b).mpr hb
  have h2 := (fMag_eq_zero_iff a).mpr h
  simp only [fdiv, not_isNaN_of_finite (zero_finite h), not_isNaN_of_finite (zero_finite hb),
    not_isInf_of_finite (zero_finite h), not_isInf_of_finite (zero_finite hb), h1, h2, Bool.or_self,
    Bool.false_eq_true, if_false, if_true]

theorem decide_neg {a : F} (h : fVal a ≠ 0) : decide (fVal a < 0) = fNeg a := by
  by_cases hn : fNeg a = true
  · have : fVal a = -(fMag a : Int) := by simp [fVal, hn]
    simp only [hn, decide_eq_true_eq]; omega
  · have hn' : fNeg a = false := by simpa using hn
    have : fVal a = (fMag a : Int) := by simp [fVal, hn']
    simp only [hn', decide_eq_false_iff_not]; omega

/-- Adding a zero to a value that is not zero gives it back; adding two zeros gives a zero. -/
theorem fadd_zero_left (q : F) {z a : F} (hz : fVal z = 0) (hn : fIsNaN a = false) (h0 : fVal a ≠ 0) :
    fadd q z a = a := by
  by_cases hi : fIsInf a = true
  · simp [fadd, hn, not_isNaN_of_finite (zero_finite hz), hi, not_isInf_of_finite (zero_finite hz)]
  · have hf := finite_of_not hn (by simpa using hi)
    rw [fadd_finite q (zero_finite hz) hf (by omega), hz, zero_add]
    rw [decide_neg h0]
    exact roundPack_self hn (by omega) (by rw [fVal_natAbs, Nat.mul_one])

theorem fadd_zero_right (q : F) {z a : F} (hz : fVal z = 0) (hn : fIsNaN a = false) (h0 : fVal a ≠ 0) :
    fadd q a z = a := by
  by_cases hi : fIsInf a = true
  · simp [fadd, hn, not_isNaN_of_finite (zero_finite hz), hi, not_isInf_of_finite (zero_finite hz)]
  · have hf := finite_of_not hn (by simpa using hi)
    rw [fadd_finite q hf (zero_finite hz) (by omega), hz, add_zero]
    rw [decide_neg h0]
    exact roundPack_self hn (by omega) (by rw [fVal_natAbs, Nat.mul_one])

theorem fadd_zeros (q : F) {a b : F} (ha : fVal a = 0) (hb : fVal b = 0) : fVal (fadd q a b) = 0 := by
  rw [fadd_finite_zero q (zero_finite ha) (zero_finite hb) (by omega), fVal_pack_zero]

/-- Multiplying by 1.0 gives the value back. -/
theorem fmul_one (q : F) {a : F} (hn : fIsNaN a = false) : fmul q a 0x3F800000#32 = a := by
  by_cases hi : fIsInf a = true
  · have h1 : fVal 0x3F800000#32 ≠ 0 := by rw [fVal_one]; have := unit_pos; omega
    rw [fmul_inf q hi (not_isNaN_of_finite one_facts.1) h1, one_facts.2.1, Bool.xor_false]
    exact (isInf_eq hi).symm
  · have hf := finite_of_not hn (by simpa using hi)
    rw [fmul_finite q hf one_facts.1, one_facts.2.1, Bool.xor_false, one_facts.2.2.1]
    exact roundPack_self hn unit_pos rfl

/-- Multiplying a finite value by a finite one of at most 1.0 in magnitude does not make it larger; by a zero
it gives a zero. -/
theorem fmul_le (q : F) {a b : F} (ha : fIsFinite a = true) (hb : fIsFinite b = true) (h : fMag b ≤ unit) :
    fIsFinite (fmul q a b) = true ∧ fMag (fmul q a b) ≤ fMag a := by
  have he : fEnc (fmul q a b) ≤ fEnc a := by
    rw [fmul_finite q ha hb, fEnc_roundPack]
    exact roundEnc_le unit_pos (Nat.mul_le_mul_left _ h)
  refine ⟨?_, fMag_le_iff.mpr he⟩
  simp only [fIsFinite, decide_eq_true_eq] at *; omega

theorem fmul_zero (q : F) {a b : F} (ha : fIsFinite a = true) (hb : fVal b = 0) : fVal (fmul q a b) = 0 := by
  have := (fmul_le q ha (zero_finite hb) (by rw [(fMag_eq_zero_iff b).mpr hb]; omega))
  rw [fmul_finite q ha (zero_finite hb), ← fMag_eq_zero_iff, fMag_eq_zero_iff_enc, fEnc_roundPack,
    (fMag_eq_zero_iff b).mpr hb, Nat.mul_zero]
  exact roundEnc_zero unit_pos

theorem zero_fmul (q : F) {a b : F} (ha : fVal a = 0) (hb : fIsFinite b = true) : fVal (fmul q a b) = 0 := by
  rw [fmul_finite q (zero_finite ha) hb, ← fMag_eq_zero_iff, fMag_eq_zero_iff_enc, fEnc_roundPack,
    (fMag_eq_zero_iff a).mpr ha, Nat.zero_mul]
  exact roundEnc_zero unit_pos

/-- `1.0 - m` for `m` in [0,1]: in [0,1], 1.0 for a zero, a zero for 1.0 only. -/
theorem one_sub_spec (q : F) {m : F} (h : inUnit m = true) :
    fIsFinite (fsub q 0x3F800000#32 m) = true ∧ fMag (fsub q 0x3F800000#32 m) ≤ unit ∧
      (fVal m = 0 → fsub q 0x3F800000#32 m = 0x3F800000#32) ∧
      (fVal m = (unit : Int) → fVal (fsub q 0x3F800000#32 m) = 0) ∧
      (fVal m < (unit : Int) → 0 < fVal (fsub q 0x3F800000#32 m)) := by
  have hu := unit_pos
  obtain ⟨-, h1, h2⟩ := inUnit_iff.mp h
  have hf := inUnit_finite h
  have hff : fIsFinite (fFlip m) = true := by rw [finite_flip]; exact hf
  rw [fsub_finite q one_facts.1 hf]
  have hE := fEnc_fadd q one_facts.1 hff
  have hV := fVal_fadd q one_facts.1 hff
  rw [fVal_flip, fVal_one] at hE hV
  have hle : fEnc (fadd q 0x3F800000#32 (fFlip m)) ≤ 1065353216 := by
    rw [hE]; refine roundEnc_le (by omega) ?_
    rw [one_facts.2.2.2.2]; omega
  refine ⟨?_, ?_, ?_, ?_, ?_⟩
  · simp only [fIsFinite, decide_eq_true_eq]; rw [infEnc_val]; omega
  · rw [← one_facts.2.2.2.2]; exact encMag_le_iff.mpr hle
  · intro h0
    have hz : fVal (fFlip m) = 0 := by rw [fVal_flip]; omega
    exact fadd_zero_right q hz (not_isNaN_of_finite one_facts.1) (by rw [fVal_one]; omega)
  · intro h3; rw [hV, h3]; simp
  · intro h3
    have hpos : 0 < (unit : Int) + -fVal m := by omega
    rw [hV, Int.sign_eq_one_of_pos hpos, one_mul]
    have hone : encMag 1 = 1 := encMag_of_lt (by rw [hid_val]; omega)
    have : 1 ≤ roundEnc ((unit : Int) + -fVal m).natAbs 1 :=
      le_roundEnc (by omega) (by rw [infEnc_val]; omega) (by rw [hone]; omega)
    have := encMag_le_iff.mpr this
    omega

/-! ### Exact scaling by a power of two -/

theorem encMag_double (e : Nat) : ∃ e', e' ≤ e + hid ∧ encMag e' = 2 * encMag e := by
  have hp := hid_pos
  rcases Nat.lt_or_ge e hid with h | h
  · refine ⟨2 * e, by omega, ?_⟩
    have := encMag_scaled (s := 0) (m := 2 * e) (by omega) (Or.inl rfl)
    simp only [Nat.zero_mul, Nat.zero_add, Nat.pow_zero, Nat.mul_one] at this
    rw [this, encMag_of_lt h]
  · refine ⟨e + hid, le_refl _, ?_⟩
    have hd : (e + hid) / hid = e / hid + 1 := by rw [Nat.add_div_right _ hp]
    have hm : (e + hid) % hid = e % hid := by rw [Nat.add_mod_right]
    have hq : 1 ≤ e / hid := (Nat.one_le_div_iff hp).mpr h
    obtain ⟨s, hs⟩ : ∃ s, e / hid = s + 1 := ⟨e / hid - 1, by omega⟩
    simp only [encMag, hd, hm, hs]
    simp [pow_succ]; ring

theorem encMag_scale (e n : Nat) : ∃ e', e' ≤ e + n * hid ∧ encMag e' = 2 ^ n * encMag e := by
  induction n with
  | zero => exact ⟨e, by simp, by simp⟩
  | succ n ih =>
    obtain ⟨e1, h1, h2⟩ := ih
    obtain ⟨e2, h3, h4⟩ := encMag_double e1
    refine ⟨e2, ?_, by rw [h4, h2]; ring⟩
    have : (n + 1) * hid = n * hid + hid := by ring
    omega

/-- Multiplying a value in [0,1] by a power of two up to 32 is exact. -/
theorem fmul_scale (q : F) {a b : F} {n : Nat} (ha : inUnit a = true) (hb : fIsFinite b = true)
    (hbn : fNeg b = false) (hbm : fMag b = 2 ^ n * unit) (hn : n ≤ 5) :
    fIsFinite (fmul q a b) = true ∧ fMag (fmul q a b) = 2 ^ n * fMag a ∧ fNeg (fmul q a b) = fNeg a := by
  obtain ⟨e', h1, h2⟩ := encMag_scale (fEnc a) n
  have hle : fEnc a ≤ 1065353216 := by
    have := fMag_le_iff (a := a) (b := 0x3F800000#32)
    rw [one_facts.2.2.1, one_facts.2.2.2.1] at this
    exact this.mp (inUnit_mag ha)
  have hn' : n * hid ≤ 5 * hid := Nat.mul_le_mul_right _ hn
  have hlt : e' < infEnc := by rw [infEnc_val]; rw [hid_val] at *; omega
  have hr : roundEnc (fMag a * fMag b) unit = e' := by
    refine roundEnc_exact unit_pos (le_of_lt hlt) ?_
    rw [hbm, h2]; simp only [fMag]; ring
  rw [fmul_finite q (inUnit_finite ha) hb]
  refine ⟨?_, ?_, ?_⟩
  · simp [fIsFinite, hr, hlt]
  · rw [fMag, fEnc_roundPack, hr, h2, fMag]
  · simp [hbn]

/-! ### DERIVE -/

theorem deriveGain_spec (d : Nat) {p : F} (h : inUnit p = true) :
    fIsFinite (deriveGain d p) = true ∧ fMag (deriveGain d p) = 4 * fMag p ∧
      fNeg (deriveGain d p) = fNeg p :=
  fmul_scale (n := 2) _ h four_facts.1 four_facts.2.1 four_facts.2.2 (by omega)

theorem floorInt_finite {a : F} (h : fIsFinite a = true) : floorInt a = fVal a / (unit : Int) := by
  simp [floorInt, h]

theorem deriveDs_spec (d : Nat) {p : F} (h : inUnit p = true) :
    1 ≤ deriveDs d p ∧ deriveDs d p ≤ 256 := by
  have hu := unit_pos
  have hm := inUnit_mag h
  have hmul := fmul_finite (quietNaN (d + 1)) (inUnit_finite h) depthScale_facts.1
  set m := fmul (quietNaN (d + 1)) p 0x437F0000#32 with hmdef
  have e255 : encMag 1132396544 = 255 * unit := by decide
  have henc : fEnc m ≤ 1132396544 := by
    rw [hmul, fEnc_roundPack]
    refine roundEnc_le unit_pos ?_
    rw [e255, depthScale_facts.2.2]
    calc fMag p * (255 * unit) ≤ unit * (255 * unit) := Nat.mul_le_mul_right _ hm
      _ = 255 * unit * unit := by ring
  have hfin : fIsFinite m = true := by
    simp only [fIsFinite, decide_eq_true_eq]; rw [infEnc_val]; omega
  have hmag : fMag m ≤ 255 * unit := by rw [← e255]; exact encMag_le_iff.mpr henc
  have hval : fVal m = (fMag m : Int) := by
    simp only [fVal]
    split
    · rename_i hn
      have hpn : fNeg p = true := by
        rw [hmul, fNeg_roundPack, depthScale_facts.2.1] at hn; simpa using hn
      have h0 := inUnit_neg h hpn
      have : fMag m = 0 := by
        rw [fMag_eq_zero_iff_enc, hmul, fEnc_roundPack, h0]
        simpa using roundEnc_zero unit_pos
      omega
    · rfl
  have hsum : fVal m + fVal 0x3F800000#32 = ((fMag m + unit : Nat) : Int) := by
    rw [hval, fVal_one]; push_cast; ring
  have hv := fVal_fadd (quietNaN (d + 2)) hfin one_facts.1
  have hE := fEnc_fadd (quietNaN (d + 2)) hfin one_facts.1
  rw [hsum] at hv hE
  rw [Int.natAbs_natCast] at hv hE
  have hsgn : (((fMag m + unit : Nat) : Int)).sign = 1 := Int.sign_eq_one_of_pos (by omega)
  rw [hsgn, one_mul] at hv
  have e256 : encMag 1132462080 = 256 * unit := by decide
  have hlo : unit ≤ encMag (roundEnc (fMag m + unit) 1) := by
    rw [← one_facts.2.2.2.2, encMag_le_iff]
    refine le_roundEnc (by omega) (by rw [infEnc_val]; omega) ?_
    rw [one_facts.2.2.2.2]; omega
  have hhi : roundEnc (fMag m + unit) 1 ≤ 1132462080 := by
    refine roundEnc_le (by omega) ?_
    rw [e256]; omega
  have hhi' : encMag (roundEnc (fMag m + unit) 1) ≤ 256 * unit := by
    rw [← e256]; exact encMag_le_iff.mpr hhi
  have hf : fIsFinite (fadd (quietNaN (d + 2)) m 0x3F800000#32) = true := by
    simp only [fIsFinite, decide_eq_true_eq, hE, infEnc_val]; omega
  have hds : deriveDs d p = ((encMag (roundEnc (fMag m + unit) 1) / unit : Nat) : Int) := by
    show floorInt (fadd (quietNaN (d + 2)) m 0x3F800000#32) = _
    rw [floorInt_finite hf, hv]; push_cast; rfl
  rw [hds]
  have a1 : 1 ≤ encMag (roundEnc (fMag m + unit) 1) / unit := (Nat.one_le_div_iff hu).mpr hlo
  have a2 : encMag (roundEnc (fMag m + unit) 1) / unit ≤ 256 := Nat.div_le_of_le_mul (by rw [Nat.mul_comm]; exact hhi')
  omega

/-- The depth does not depend on the NaN draws. -/
theorem deriveDs_draw (d d' : Nat) {p : F} (h : inUnit p = true) : deriveDs d p = deriveDs d' p := by
  have e : fmul (quietNaN (d + 1)) p 0x437F0000#32 = fmul (quietNaN (d' + 1)) p 0x437F0000#32 := by
    rw [fmul_finite _ (inUnit_finite h) depthScale_facts.1, fmul_finite _ (inUnit_finite h) depthScale_facts.1]
  have hfin : fIsFinite (fmul (quietNaN (d' + 1)) p 0x437F0000#32) = true := by
    rw [fmul_finite _ (inUnit_finite h) depthScale_facts.1, fIsFinite, fEnc_roundPack, decide_eq_true_eq]
    refine lt_of_le_of_lt (roundEnc_le (e := 1132396544) unit_pos ?_) (by rw [infEnc_val]; omega)
    rw [depthScale_facts.2.2, show encMag 1132396544 = 255 * unit by decide]
    calc fMag p * (255 * unit) ≤ unit * (255 * unit) := Nat.mul_le_mul_right _ (inUnit_mag h)
      _ = 255 * unit * unit := by ring
  show floorInt (fadd (quietNaN (d + 2)) (fmul (quietNaN (d + 1)) p 0x437F0000#32) 0x3F800000#32)
    = floorInt (fadd (quietNaN (d' + 2)) (fmul (quietNaN (d' + 1)) p 0x437F0000#32) 0x3F800000#32)
  rw [e]
  by_cases h0 : fVal (fmul (quietNaN (d' + 1)) p 0x437F0000#32) + fVal 0x3F800000#32 = 0
  · rw [fadd_finite_zero _ hfin one_facts.1 h0, fadd_finite_zero _ hfin one_facts.1 h0]
  · rw [fadd_finite _ hfin one_facts.1 h0, fadd_finite _ hfin one_facts.1 h0]

theorem deriveGain_draw (d d' : Nat) {p : F} (h : inUnit p = true) : deriveGain d p = deriveGain d' p := by
  show fmul _ p 0x40800000#32 = fmul _ p 0x40800000#32
  rw [fmul_finite _ (inUnit_finite h) four_facts.1, fmul_finite _ (inUnit_finite h) four_facts.1]

/-! ### The window parameter -/

/-- The 33 stored values: each is finite, in [0,1], `k/32` exactly, and its product with 32.0 is `k`. -/
theorem windowStep_table : ∀ k ∈ List.range 33,
    inUnit (windowStep k) = true ∧ fNeg (windowStep k) = false ∧ fMag (windowStep k) * 32 = k * unit ∧
      isWindowStep (windowStep k) = true := by decide +kernel

theorem windowStep_spec {k : Nat} (h : k ≤ 32) :
    inUnit (windowStep k) = true ∧ fNeg (windowStep k) = false ∧ fMag (windowStep k) * 32 = k * unit ∧
      isWindowStep (windowStep k) = true :=
  windowStep_table k (List.mem_range.mpr (by omega))

theorem isWindowStep_iff {a : F} : isWindowStep a = true ↔ ∃ k, k ≤ 32 ∧ a = windowStep k := by
  simp only [isWindowStep, List.any_eq_true, List.mem_range, Config.WIN_MAX, beq_iff_eq]
  exact ⟨fun ⟨k, h1, h2⟩ => ⟨k, by omega, h2⟩, fun ⟨k, h1, h2⟩ => ⟨k, by omega, h2⟩⟩

theorem deriveW_windowStep (d : Nat) {k : Nat} (h : k ≤ 32) : deriveW d (windowStep k) = (k : Int) := by
  obtain ⟨hu, hn, hm, -⟩ := windowStep_spec h
  obtain ⟨hf, hM, hN⟩ := fmul_scale (n := 5) (quietNaN (d + 3)) hu winSteps_facts.1 winSteps_facts.2.1
    winSteps_facts.2.2 (by omega)
  show floorInt (fmul (quietNaN (d + 3)) (windowStep k) 0x42000000#32) = _
  rw [floorInt_finite hf, fVal, hN, hn, hM]
  have : (2 : Nat) ^ 5 * fMag (windowStep k) = k * unit := by omega
  rw [this]
  simp only [Bool.false_eq_true, if_false]
  rw [Nat.cast_mul, Int.mul_ediv_cancel _ (by have := unit_pos; omega)]

theorem effectiveWindow_windowStep (d : Nat) {k : Nat} (h : k ≤ 32) :
    effectiveWindow (deriveW d (windowStep k)) = if k = 0 then 8 else (k : Int) := by
  rw [deriveW_windowStep d h]
  by_cases h0 : k = 0 <;> simp [effectiveWindow, h0, Config.FALLBACK_W]

/-- The integers 0..32 as binary32 values, divided by 32.0. -/
theorem i2f_table : ∀ k ∈ List.range 33,
    fIsFinite (i2f (k : Int)) = true ∧ fdiv Config.ZERO (i2f (k : Int)) 0x42000000#32 = windowStep k := by
  decide +kernel

/-- The quantisation of a value in [0,1]: `k/32` with `k` the integer nearest `32 v`, a tie going up. -/
theorem quant_spec (d : Nat) {v : F} (h : inUnit v = true) :
    quant d v = windowStep ((64 * fMag v + unit) / (2 * unit)) ∧ (64 * fMag v + unit) / (2 * unit) ≤ 32 := by
  have hu := unit_pos
  obtain ⟨hf, hM, hN⟩ := fmul_scale (n := 5) (quietNaN d) h winSteps_facts.1 winSteps_facts.2.1
    winSteps_facts.2.2 (by omega)
  have hk : (64 * fMag v + unit) / (2 * unit) ≤ 32 := by
    have := inUnit_mag h
    rw [Nat.div_le_iff_le_mul (by omega)]; omega
  have hnear : nearestInt (fmul (quietNaN d) v 0x42000000#32)
      = (((64 * fMag v + unit) / (2 * unit) : Nat) : Int) := by
    have e : 2 * (2 ^ 5 * fMag v) + unit = 64 * fMag v + unit := by omega
    simp only [nearestInt, hM, hN, e]
    split
    · rename_i hneg
      rw [inUnit_neg h hneg]
      have : (64 * 0 + unit) / (2 * unit) = 0 := Nat.div_eq_of_lt (by omega)
      rw [this]; rfl
    · rfl
  refine ⟨?_, hk⟩
  obtain ⟨hi, hd⟩ := i2f_table ((64 * fMag v + unit) / (2 * unit)) (List.mem_range.mpr (by omega))
  show fdiv (quietNaN d) (i2f (nearestInt (fmul (quietNaN d) v 0x42000000#32))) 0x42000000#32 = _
  have h0 : fMag 0x42000000#32 ≠ 0 := by rw [winSteps_facts.2.2]; omega
  rw [hnear, ← hd, fdiv_finite _ hi winSteps_facts.1 h0, fdiv_finite _ hi winSteps_facts.1 h0]

end Sys2Proof.Machine
end

