-- ==== Sys2Proof/Laws/Decode.lean ====
section
/-!
SUPPORT. The fields of a command word, read from a word put together of them and as numbers.
-/

namespace Sys2Proof

/-- Concatenation as a number. -/
theorem append_toNat {n m : Nat} (x : BitVec n) (y : BitVec m) :
    (x ++ y).toNat = x.toNat * 2 ^ m + y.toNat := by
  rw [BitVec.toNat_append, ← Nat.shiftLeft_add_eq_or_of_lt y.isLt, Nat.shiftLeft_eq]

theorem command_lt (w : Command) : w.toNat < 281474976710656 := w.isLt

theorem sel_lt (b : Sel) : b.toNat < 256 := b.isLt

theorem commandBits_val : commandBits = 48 ∧ Config.SEL_BITS + Config.FLT.width = 40 := ⟨rfl, rfl⟩

theorem opOf_toNat (w : Command) : (opOf w).toNat = w.toNat / 2 ^ 40 := by
  have := command_lt w
  simp only [opOf, BitVec.extractLsb'_toNat, Nat.shiftRight_eq_div_pow, commandBits_val.2]
  omega

theorem selOf_toNat (w : Command) : (selOf w).toNat = w.toNat / 2 ^ 32 % 256 := by
  simp only [selOf, BitVec.extractLsb'_toNat, Nat.shiftRight_eq_div_pow, Machine.width_val]
  rfl

theorem dataOf_toNat (w : Command) : (dataOf w).toNat = w.toNat % 2 ^ 32 := by
  simp only [dataOf, BitVec.extractLsb'_toNat, Nat.shiftRight_zero, Machine.width_val]

/-- A word put together of its fields, as a number. -/
theorem word_toNat (a : Op) (b : Sel) (c : F) :
    BitVec.toNat (a ++ b ++ c : Command) = a.toNat * 2 ^ 40 + b.toNat * 2 ^ 32 + c.toNat := by
  have h : (a ++ b ++ c).toNat = a.toNat * 2 ^ 40 + b.toNat * 2 ^ 32 + c.toNat := by
    rw [append_toNat, append_toNat]; ring
  exact h

@[simp] theorem opOf_append (a : Op) (b : Sel) (c : F) : opOf (a ++ b ++ c) = a := by
  apply BitVec.eq_of_toNat_eq
  have := a.isLt; have := sel_lt b; have := Machine.pattern_lt c
  rw [opOf_toNat, word_toNat]; omega

@[simp] theorem selOf_append (a : Op) (b : Sel) (c : F) : selOf (a ++ b ++ c) = b := by
  apply BitVec.eq_of_toNat_eq
  have := a.isLt; have := sel_lt b; have := Machine.pattern_lt c
  rw [selOf_toNat, word_toNat]; omega

@[simp] theorem dataOf_append (a : Op) (b : Sel) (c : F) : dataOf (a ++ b ++ c) = c := by
  apply BitVec.eq_of_toNat_eq
  have := a.isLt; have := sel_lt b; have := Machine.pattern_lt c
  rw [dataOf_toNat, word_toNat]; omega

/-- A word is its three fields. -/
theorem fields_append (w : Command) : opOf w ++ selOf w ++ dataOf w = w := by
  apply BitVec.eq_of_toNat_eq
  have := command_lt w
  refine (word_toNat _ _ _).trans ?_
  rw [opOf_toNat, selOf_toNat, dataOf_toNat]; omega

/-- What a decoded operation says of its word. -/
theorem decode_fields {w : Command} {i : Instr} (h : decode w = .instr i) :
    (∃ ch x, i = .sample ch x ∧ opOf w = 0x01#8 ∧ selOf w = ch ∧ dataOf w = x ∧ ch.toNat < Config.NCH) ∨
    (∃ idx v, i = .setp idx v ∧ opOf w = 0x02#8 ∧ selOf w = idx ∧ dataOf w = v) ∨
    (∃ idx, i = .getp idx ∧ opOf w = 0x03#8 ∧ selOf w = idx ∧ dataOf w = 0x00000000#32) ∨
    (∃ r, i = .setrate r ∧ opOf w = 0x04#8 ∧ selOf w = 0x00#8 ∧ dataOf w = r) := by
  simp only [decode] at h
  split at h
  · split at h
    · cases h; exact .inl ⟨_, _, rfl, by assumption, rfl, rfl, by assumption⟩
    · cases h
  · split at h
    · cases h; exact .inr (.inl ⟨_, _, rfl, by assumption, rfl, rfl⟩)
    · split at h
      · split at h
        · cases h; exact .inr (.inr (.inl ⟨_, rfl, by assumption, rfl, by assumption⟩))
        · cases h
      · split at h
        · split at h
          · cases h; exact .inr (.inr (.inr ⟨_, rfl, by assumption, by assumption, rfl⟩))
          · cases h
        · cases h

/-- Bytes laid out by `bytesLE` stand for the word they come from. -/
theorem natOfBytesLE_slices (m : Nat) : ∀ n k : Nat,
    natOfBytesLE ((List.range' k n).map fun j => BitVec.ofNat 8 (m / 2 ^ (8 * j))) = m / 2 ^ (8 * k) % 2 ^ (8 * n)
  | 0, k => by simp [natOfBytesLE, Nat.mod_one]
  | n + 1, k => by
    have ih := natOfBytesLE_slices m n (k + 1)
    have e : (2 : Nat) ^ (8 * (k + 1)) = 2 ^ (8 * k) * 256 := by rw [Nat.mul_add, Nat.pow_add]
    have e' : (2 : Nat) ^ (8 * (n + 1)) = 256 * 2 ^ (8 * n) := by rw [Nat.mul_add, Nat.pow_add, Nat.mul_comm]
    simp only [List.range'_succ, List.map_cons, natOfBytesLE, ih, BitVec.toNat_ofNat]
    rw [e, ← Nat.div_div_eq_div_mul, e', Nat.mod_mul]

theorem natOfBytesLE_commandBytes (w : Command) : natOfBytesLE (commandBytes w) = w.toNat := by
  have h : commandBytes w = (List.range' 0 6).map fun j => BitVec.ofNat 8 (w.toNat / 2 ^ (8 * j)) := by
    rw [← List.range_eq_range']
    refine List.map_congr_left fun j _ => BitVec.eq_of_toNat_eq ?_
    simp [Nat.shiftRight_eq_div_pow]
  rw [h, natOfBytesLE_slices]
  have := command_lt w
  simp only [Nat.mul_zero, Nat.pow_zero, Nat.div_one]
  exact Nat.mod_eq_of_lt this

theorem commandBytes_length (w : Command) : (commandBytes w).length = commandByteCount := by
  simp [commandBytes, bytesLE, commandByteCount]

/-- Byte `k` of a command word. -/
theorem commandBytes_get (w : Command) {k : Nat} (h : k < 6) :
    (commandBytes w)[k]? = some (w.extractLsb' (8 * k) 8) := by
  have hr : (List.range 6)[k]? = some k := List.getElem?_range h
  exact (List.getElem?_map ..).trans (congrArg (Option.map _) hr)

/-- The decoder reads one word from its six bytes, and leaves the bytes after it. -/
theorem decodeBytes_commandBytes (w : Command) (rest : List Byte) :
    decodeBytes (commandBytes w ++ rest) = (decode w, rest) := by
  have hl := commandBytes_length w
  have hn : ¬ (commandBytes w ++ rest).length < commandByteCount := by rw [List.length_append]; omega
  rw [decodeBytes, if_neg hn, List.take_left' hl, List.drop_left' hl, natOfBytesLE_commandBytes]
  congr 2
  exact BitVec.ofNat_toNat _ _ |>.trans (BitVec.setWidth_eq w)

end Sys2Proof
end

