-- ==== Sys2Proof/Laws/State.lean ====
section
/-!
SUPPORT. What each named operation over the state does to each field: one lemma per field, so that later proofs
need not unfold a record update.
-/

namespace Sys2Proof.Machine

/-! ### Channels: the elements an encode step, a commit and a clock update touch -/

@[simp] theorem Channel.reset_qi : Channel.reset.qi = 0 := rfl

@[simp] theorem Channel.reset_dr : Channel.reset.dr = 0 := rfl

@[simp] theorem Channel.reset_dout : Channel.reset.dout = 0 := rfl

@[simp] theorem Channel.reset_zr : Channel.reset.zr = 0 := rfl

@[simp] theorem Channel.reset_clk : Channel.reset.clk = 0x00000000#32 := rfl

@[simp] theorem Channel.reset_qc (i : Nat) (h : i < Config.QLEN) : Channel.reset.qc[i] = .zero := by
  simp [Channel.reset]

@[simp] theorem Channel.reset_qb (i : Nat) (h : i < Config.QLEN) : Channel.reset.qb[i] = .zero := by
  simp [Channel.reset]

/-! ### Responses -/

@[simp] theorem noValue_eq : noValue = 0x00000000#32 := rfl

/-! ### Window entries -/

@[simp] theorem deltaVal_zero : deltaVal .zero = 0 := rfl

@[simp] theorem deltaVal_up : deltaVal .up = 1 := rfl

@[simp] theorem deltaVal_down : deltaVal .down = -1 := rfl

/-- An index in 0..31 reads the entry of the window. -/
theorem entryAt_of_eq (q : Vector Delta Config.QLEN) {j : Int} {i : Nat} (h : i < Config.QLEN) (e : j = i) :
    entryAt q j = q[i] := by
  subst e; simp [entryAt, h]

/-! ### One function on all cells -/

@[simp] theorem mapCells_params (f : Cell → Cell) (s : State) (i : Nat) (h : i < 4) :
    (mapCells f s).params[i] = f s.params[i] := by simp [mapCells]

@[simp] theorem mapCells_srate (f : Cell → Cell) (s : State) : (mapCells f s).srate = f s.srate := rfl

@[simp] theorem mapCells_chans (f : Cell → Cell) (s : State) : (mapCells f s).chans = s.chans := rfl

@[simp] theorem mapCells_sport (f : Cell → Cell) (s : State) : (mapCells f s).sport = s.sport := rfl

@[simp] theorem mapCells_cport (f : Cell → Cell) (s : State) : (mapCells f s).cport = s.cport := rfl

@[simp] theorem mapCells_turns (f : Cell → Cell) (s : State) : (mapCells f s).turns = s.turns := rfl

@[simp] theorem mapCells_draws (f : Cell → Cell) (s : State) : (mapCells f s).draws = s.draws := rfl

/-! ### Ports -/

@[simp] theorem portOf_sample (s : State) : portOf .sample s = s.sport := rfl

@[simp] theorem portOf_control (s : State) : portOf .control s = s.cport := rfl

@[simp] theorem portOf_setPort (p : Port) (t : PortState) (s : State) : portOf p (setPort p t s) = t := by
  cases p <;> rfl

theorem portOf_setPort_other {p p' : Port} (h : p' ≠ p) (t : PortState) (s : State) :
    portOf p' (setPort p t s) = portOf p' s := by
  cases p <;> cases p' <;> first | rfl | exact absurd rfl h

@[simp] theorem setPort_params (p : Port) (t : PortState) (s : State) : (setPort p t s).params = s.params := by
  cases p <;> rfl

@[simp] theorem setPort_srate (p : Port) (t : PortState) (s : State) : (setPort p t s).srate = s.srate := by
  cases p <;> rfl

@[simp] theorem setPort_chans (p : Port) (t : PortState) (s : State) : (setPort p t s).chans = s.chans := by
  cases p <;> rfl

@[simp] theorem setPort_turns (p : Port) (t : PortState) (s : State) : (setPort p t s).turns = s.turns := by
  cases p <;> rfl

@[simp] theorem setPort_draws (p : Port) (t : PortState) (s : State) : (setPort p t s).draws = s.draws := by
  cases p <;> rfl

@[simp] theorem takeCommand_params (p : Port) (s : State) : (takeCommand p s).params = s.params := by
  simp [takeCommand]

@[simp] theorem takeCommand_srate (p : Port) (s : State) : (takeCommand p s).srate = s.srate := by
  simp [takeCommand]

@[simp] theorem takeCommand_chans (p : Port) (s : State) : (takeCommand p s).chans = s.chans := by
  simp [takeCommand]

@[simp] theorem takeCommand_turns (p : Port) (s : State) : (takeCommand p s).turns = s.turns := by
  simp [takeCommand]

@[simp] theorem takeCommand_draws (p : Port) (s : State) : (takeCommand p s).draws = s.draws := by
  simp [takeCommand]

@[simp] theorem portOf_takeCommand (p : Port) (s : State) :
    portOf p (takeCommand p s) = { portOf p s with pending := none } := by simp [takeCommand]

theorem portOf_takeCommand_other {p p' : Port} (h : p' ≠ p) (s : State) :
    portOf p' (takeCommand p s) = portOf p' s := by simp [takeCommand, portOf_setPort_other h]

@[simp] theorem takeCommand_sample_sport (s : State) :
    (takeCommand .sample s).sport = { s.sport with pending := none } := rfl

@[simp] theorem takeCommand_sample_cport (s : State) : (takeCommand .sample s).cport = s.cport := rfl

@[simp] theorem takeCommand_control_cport (s : State) :
    (takeCommand .control s).cport = { s.cport with pending := none } := rfl

@[simp] theorem takeCommand_control_sport (s : State) : (takeCommand .control s).sport = s.sport := rfl

/-! ### Responses -/

@[simp] theorem respond_control (v : Response) (s : State) :
    respond .control v s = { s with cport := { s.cport with responses := s.cport.responses ++ [v] } } := rfl

@[simp] theorem respond_chans (p : Port) (v : Response) (s : State) : (respond p v s).chans = s.chans := by
  cases p <;> rfl

@[simp] theorem respond_turns (p : Port) (v : Response) (s : State) : (respond p v s).turns = s.turns := by
  cases p <;> rfl

@[simp] theorem respond_draws (p : Port) (v : Response) (s : State) : (respond p v s).draws = s.draws := by
  cases p <;> rfl

@[simp] theorem portOf_respond (p : Port) (v : Response) (s : State) :
    portOf p (respond p v s) = { portOf p s with responses := (portOf p s).responses ++ [v] } := by
  cases p <;> rfl

theorem portOf_respond_other {p p' : Port} (h : p' ≠ p) (v : Response) (s : State) :
    portOf p' (respond p v s) = portOf p' s := by
  cases p <;> cases p' <;> first | rfl | exact absurd rfl h

@[simp] theorem respond_sample_sport (v : Response) (s : State) :
    (respond .sample v s).sport = { s.sport with responses := s.sport.responses ++ [v] } := rfl

@[simp] theorem respond_sample_cport (v : Response) (s : State) : (respond .sample v s).cport = s.cport := rfl

@[simp] theorem respond_sample_params (v : Response) (s : State) (i : Nat) (h : i < 4) :
    (respond .sample v s).params[i] = (s.params[i]).settle := by simp [respond]

@[simp] theorem respond_sample_srate (v : Response) (s : State) :
    (respond .sample v s).srate = s.srate.settle := rfl

@[simp] theorem Cell.settle_cur (c : Cell) : c.settle.cur = c.cur := rfl

@[simp] theorem Cell.age_cur (c : Cell) : c.age.cur = c.cur := rfl

@[simp] theorem Cell.write_cur (busy : Bool) (v : F) (c : Cell) : (c.write busy v).cur = v := rfl

/-- A response changes no cell's current value. -/
theorem respond_cur (p : Port) (v : Response) (s : State) :
    (∀ (i : Nat) (h : i < 4), (respond p v s).params[i].cur = s.params[i].cur) ∧
      (respond p v s).srate.cur = s.srate.cur := by
  cases p <;> simp

/-! ### Cell writes -/

@[simp] theorem pWrite_params (i : Fin 4) (v : F) (s : State) (j : Nat) (h : j < 4) :
    (pWrite i v s).params[j] = if i.val = j then s.params[j].write (sampleBusy s) v else s.params[j] := by
  by_cases e : i.val = j
  · subst e; simp [pWrite]
  · simp [pWrite, e]

theorem pWrite_params_other {i j : Fin 4} (h : j ≠ i) (v : F) (s : State) :
    (pWrite i v s).params[j] = s.params[j] := by
  have : i.val ≠ j.val := fun e => h (Fin.ext e.symm)
  simp [pWrite, this]

@[simp] theorem pWrite_srate (i : Fin 4) (v : F) (s : State) : (pWrite i v s).srate = s.srate := rfl

@[simp] theorem pWrite_chans (i : Fin 4) (v : F) (s : State) : (pWrite i v s).chans = s.chans := rfl

@[simp] theorem pWrite_sport (i : Fin 4) (v : F) (s : State) : (pWrite i v s).sport = s.sport := rfl

@[simp] theorem pWrite_cport (i : Fin 4) (v : F) (s : State) : (pWrite i v s).cport = s.cport := rfl

@[simp] theorem pWrite_turns (i : Fin 4) (v : F) (s : State) : (pWrite i v s).turns = s.turns := rfl

@[simp] theorem pWrite_draws (i : Fin 4) (v : F) (s : State) : (pWrite i v s).draws = s.draws := rfl

@[simp] theorem sWrite_srate (v : F) (s : State) : (sWrite v s).srate = s.srate.write (sampleBusy s) v := rfl

@[simp] theorem sWrite_params (v : F) (s : State) : (sWrite v s).params = s.params := rfl

@[simp] theorem sWrite_chans (v : F) (s : State) : (sWrite v s).chans = s.chans := rfl

@[simp] theorem sWrite_sport (v : F) (s : State) : (sWrite v s).sport = s.sport := rfl

@[simp] theorem sWrite_cport (v : F) (s : State) : (sWrite v s).cport = s.cport := rfl

@[simp] theorem sWrite_turns (v : F) (s : State) : (sWrite v s).turns = s.turns := rfl

@[simp] theorem sWrite_draws (v : F) (s : State) : (sWrite v s).draws = s.draws := rfl

/-! ### Issuing -/

@[simp] theorem issueCommand_control (w : Command) (s : State) :
    issueCommand .control w s = { s with cport := { s.cport with pending := some w } } := rfl

@[simp] theorem issueCommand_chans (p : Port) (w : Command) (s : State) :
    (issueCommand p w s).chans = s.chans := by
  cases p <;> simp [issueCommand]; split <;> rfl

@[simp] theorem issueCommand_turns (p : Port) (w : Command) (s : State) :
    (issueCommand p w s).turns = s.turns := by
  cases p <;> simp [issueCommand]; split <;> rfl

@[simp] theorem issueCommand_draws (p : Port) (w : Command) (s : State) :
    (issueCommand p w s).draws = s.draws := by
  cases p <;> simp [issueCommand]; split <;> rfl

@[simp] theorem portOf_issueCommand (p : Port) (w : Command) (s : State) :
    portOf p (issueCommand p w s) = { portOf p s with pending := some w } := by
  cases p <;> simp [issueCommand]; split <;> rfl

/-! ### Reset -/

@[simp] theorem reset_params (i : Nat) (h : i < 4) : State.reset.params[i] = Cell.fresh (resetParam i) := by
  simp [State.reset]

@[simp] theorem reset_srate : State.reset.srate = Cell.fresh resetRate := rfl

@[simp] theorem reset_chans (c : Nat) (h : c < Config.NCH) : State.reset.chans[c] = Channel.reset := by
  simp [State.reset]

@[simp] theorem resetMachine_params (s : State) : (resetMachine s).params = State.reset.params := rfl

@[simp] theorem resetMachine_srate (s : State) : (resetMachine s).srate = State.reset.srate := rfl

@[simp] theorem resetMachine_chans (s : State) : (resetMachine s).chans = State.reset.chans := rfl

@[simp] theorem resetMachine_turns (s : State) : (resetMachine s).turns = s.turns := rfl

@[simp] theorem resetMachine_sport (s : State) :
    (resetMachine s).sport = { pending := none, responses := s.sport.responses } := rfl

@[simp] theorem resetMachine_cport (s : State) :
    (resetMachine s).cport = { pending := none, responses := s.cport.responses } := rfl

end Sys2Proof.Machine
end

