-- ==== Sys2Proof/Laws/Exec.lean ====
section
/-!
SUPPORT. What each operation answers, and what a port, the reset input and a step can do: stated once, so that
later proofs cite these and do not unfold the machine.
-/

namespace Sys2Proof.Machine

/-! ### The selector -/

theorem chanIndex_of_eq {ch : Sel} {c : Fin Config.NCH} (h : ch.toNat = c.val) : chanIndex ch = some c := by
  have : ch.toNat < Config.NCH := h ▸ c.isLt
  simp only [chanIndex, this, dif_pos]
  exact congrArg some (Fin.ext h)

theorem chanIndex_none {ch : Sel} (h : Config.NCH ≤ ch.toNat) : chanIndex ch = none := by
  simp [chanIndex, Nat.not_lt.mpr h]

theorem paramIndex_of_eq {idx : Sel} {i : Fin 4} (h : idx.toNat = i.val) : paramIndex idx = some i := by
  have : idx.toNat < 4 := h ▸ i.isLt
  simp only [paramIndex, this, dif_pos]
  exact congrArg some (Fin.ext h)

theorem paramIndex_none {idx : Sel} (h : 4 ≤ idx.toNat) : paramIndex idx = none := by
  simp [paramIndex, Nat.not_lt.mpr h]

/-! ### Words of the opcode table -/

/-- The decoder gives for a table word what it gives for the word `withFetchWord` places. -/
theorem decode_wordOf {w : Nat} {i : Instr} (h : decodeTableWord 48 w = some i) :
    decode (wordOf 48 w) = .instr i := by
  have hb := decodeBytes_commandBytes (wordOf 48 w) []
  rw [List.append_nil] at hb
  have hb1 : (decodeBytes (commandBytes (BitVec.ofNat _ (w % 2 ^ 48)))).1 = decode (wordOf 48 w) :=
    congrArg Prod.fst hb
  rw [decodeTableWord, hb1] at h
  split at h
  · cases h; assumption
  · cases h

/-! ### The operations -/

/-- The state `SAMPLE` of channel `c` leads to. -/
def sampleState (c : Fin Config.NCH) (x : F) (s : State) : State :=
  respond .sample (sampleOut s.draws (readCells s) x s.chans[c])
    { s with
      chans := s.chans.set c (sampleNext s.draws (readCells s) x s.chans[c])
      draws := s.draws + sampleDraws }

theorem exec_sample {ch : Sel} {c : Fin Config.NCH} (h : ch.toNat = c.val) (x : F) (s : State) :
    exec (.sample ch x) s = .next (sampleState c x s) := by
  simp only [exec, execSample, chanIndex_of_eq h, sampleState]

theorem exec_sample_missing {ch : Sel} (h : Config.NCH ≤ ch.toNat) (x : F) (s : State) :
    exec (.sample ch x) s = .next (answerReserved .sample s) := by
  simp only [exec, execSample, chanIndex_none h]

theorem exec_setp {idx : Sel} {i : Fin 4} (h : idx.toNat = i.val) {v : F} (hv : inUnit v = true) (s : State) :
    exec (.setp idx v) s
      = .next (respond .control 0x00000000#32 (pWrite i (storedValue s.draws i v) s)) := by
  simp only [exec, execSetp, paramIndex_of_eq h, hv, if_true, noValue_eq]

theorem exec_setp_outside {idx : Sel} {i : Fin 4} (h : idx.toNat = i.val) {v : F} (hv : inUnit v = false)
    (s : State) : exec (.setp idx v) s = .refused .paramOutsideDomain := by
  simp [exec, execSetp, paramIndex_of_eq h, hv]

theorem exec_setp_unknown {idx : Sel} (h : 4 ≤ idx.toNat) (v : F) (s : State) :
    exec (.setp idx v) s = .next (respond .control 0x00000000#32 s) := by
  simp only [exec, execSetp, paramIndex_none h, noValue_eq]

theorem exec_getp {idx : Sel} {i : Fin 4} (h : idx.toNat = i.val) (s : State) :
    exec (.getp idx) s = .next (respond .control s.params[i].cur s) := by
  simp only [exec, execGetp, paramIndex_of_eq h, pRead]

theorem exec_getp_unknown {idx : Sel} (h : 4 ≤ idx.toNat) (s : State) :
    exec (.getp idx) s = .next (respond .control 0x00000000#32 s) := by
  simp only [exec, execGetp, paramIndex_none h, noValue_eq]

theorem exec_setrate {r : F} (h : legalRate r = true) (s : State) :
    exec (.setrate r) s = .next (respond .control 0x00000000#32 (sWrite r s)) := by
  simp only [exec, execSetrate, h, if_true, noValue_eq]

theorem exec_setrate_outside {r : F} (h : legalRate r = false) (s : State) :
    exec (.setrate r) s = .refused .rateOutsideDomain := by
  simp [exec, execSetrate, h]

/-- Every way an operation can lead to a next state: it answers on its port a state that differs in one
channel, one parameter, the rate, or nothing. -/
theorem exec_cases {i : Instr} {s t : State} (h : exec i s = .next t) :
    (∃ ch x, i = .sample ch x ∧ (∃ c : Fin Config.NCH, ch.toNat = c.val ∧ t = sampleState c x s)) ∨
    (∃ ch x, i = .sample ch x ∧ Config.NCH ≤ ch.toNat ∧ t = answerReserved .sample s) ∨
    (∃ idx v, i = .setp idx v ∧ ∃ j : Fin 4, idx.toNat = j.val ∧ inUnit v = true ∧
      t = respond .control 0x00000000#32 (pWrite j (storedValue s.draws j v) s)) ∨
    (∃ idx v, i = .setp idx v ∧ 4 ≤ idx.toNat ∧ t = respond .control 0x00000000#32 s) ∨
    (∃ idx v, i = .getp idx ∧ t = respond .control v s) ∨
    (∃ r, i = .setrate r ∧ legalRate r = true ∧ t = respond .control 0x00000000#32 (sWrite r s)) := by
  cases i with
  | sample ch x =>
    rcases Nat.lt_or_ge ch.toNat Config.NCH with hc | hc
    · rw [exec_sample (c := ⟨ch.toNat, hc⟩) rfl] at h
      cases h; exact .inl ⟨_, _, rfl, _, rfl, rfl⟩
    · rw [exec_sample_missing hc] at h
      cases h; exact .inr (.inl ⟨_, _, rfl, hc, rfl⟩)
  | setp idx v =>
    rcases Nat.lt_or_ge idx.toNat 4 with hc | hc
    · by_cases hv : inUnit v = true
      · rw [exec_setp (i := ⟨idx.toNat, hc⟩) rfl hv] at h
        cases h; exact .inr (.inr (.inl ⟨_, _, rfl, _, rfl, hv, rfl⟩))
      · rw [exec_setp_outside (i := ⟨idx.toNat, hc⟩) rfl (by simpa using hv)] at h
        cases h
    · rw [exec_setp_unknown hc] at h
      cases h; exact .inr (.inr (.inr (.inl ⟨_, _, rfl, hc, rfl⟩)))
  | getp idx =>
    rcases Nat.lt_or_ge idx.toNat 4 with hc | hc
    · rw [exec_getp (i := ⟨idx.toNat, hc⟩) rfl] at h
      cases h; exact .inr (.inr (.inr (.inr (.inl ⟨_, _, rfl, rfl⟩))))
    · rw [exec_getp_unknown hc] at h
      cases h; exact .inr (.inr (.inr (.inr (.inl ⟨_, _, rfl, rfl⟩))))
  | setrate r =>
    by_cases hr : legalRate r = true
    · rw [exec_setrate hr] at h
      cases h; exact .inr (.inr (.inr (.inr (.inr ⟨_, rfl, hr, rfl⟩))))
    · rw [exec_setrate_outside (by simpa using hr)] at h
      cases h

/-- An operation is refused exactly when its operand is outside the specification. -/
theorem exec_refused_iff {i : Instr} {s : State} : (∃ r, exec i s = .refused r) ↔ i.inDomain = false := by
  cases i with
  | sample ch x =>
    rcases Nat.lt_or_ge ch.toNat Config.NCH with hc | hc
    · simp [exec_sample (c := ⟨ch.toNat, hc⟩) rfl, Instr.inDomain]
    · simp [exec_sample_missing hc, Instr.inDomain]
  | setp idx v =>
    rcases Nat.lt_or_ge idx.toNat 4 with hc | hc
    · by_cases hv : inUnit v = true
      · simp [exec_setp (i := ⟨idx.toNat, hc⟩) rfl hv, Instr.inDomain, hv]
      · have hv' : inUnit v = false := by simpa using hv
        simp [exec_setp_outside (i := ⟨idx.toNat, hc⟩) rfl hv', Instr.inDomain, hv', hc]
    · simp [exec_setp_unknown hc, Instr.inDomain, hc]
  | getp idx =>
    rcases Nat.lt_or_ge idx.toNat 4 with hc | hc
    · simp [exec_getp (i := ⟨idx.toNat, hc⟩) rfl, Instr.inDomain]
    · simp [exec_getp_unknown hc, Instr.inDomain]
  | setrate r =>
    by_cases hr : legalRate r = true
    · simp [exec_setrate hr, Instr.inDomain, hr]
    · have hr' : legalRate r = false := by simpa using hr
      simp [exec_setrate_outside hr', Instr.inDomain, hr']

/-! ### Fields of the state after a `SAMPLE` -/

@[simp] theorem sampleState_chans (c : Fin Config.NCH) (x : F) (s : State) (j : Nat) (h : j < Config.NCH) :
    (sampleState c x s).chans[j]
      = if c.val = j then sampleNext s.draws (readCells s) x s.chans[j] else s.chans[j] := by
  by_cases e : c.val = j
  · subst e; simp [sampleState]
  · simp [sampleState, e]

theorem sampleState_chan_other {c c' : Fin Config.NCH} (h : c' ≠ c) (x : F) (s : State) :
    (sampleState c x s).chans[c'] = s.chans[c'] := by
  have : c.val ≠ c'.val := fun e => h (Fin.ext e.symm)
  simp [sampleState, this]

@[simp] theorem sampleState_sport (c : Fin Config.NCH) (x : F) (s : State) :
    (sampleState c x s).sport = { s.sport with
      responses := s.sport.responses ++ [sampleOut s.draws (readCells s) x s.chans[c]] } := rfl

@[simp] theorem sampleState_cport (c : Fin Config.NCH) (x : F) (s : State) :
    (sampleState c x s).cport = s.cport := rfl

@[simp] theorem sampleState_turns (c : Fin Config.NCH) (x : F) (s : State) :
    (sampleState c x s).turns = s.turns := rfl

@[simp] theorem sampleState_draws (c : Fin Config.NCH) (x : F) (s : State) :
    (sampleState c x s).draws = s.draws + sampleDraws := rfl

@[simp] theorem sampleState_params (c : Fin Config.NCH) (x : F) (s : State) (i : Nat) (h : i < 4) :
    (sampleState c x s).params[i] = (s.params[i]).settle := by simp [sampleState]

@[simp] theorem sampleState_srate (c : Fin Config.NCH) (x : F) (s : State) :
    (sampleState c x s).srate = s.srate.settle := rfl

/-! ### Ports, reset and the step -/

/-- A port that answers: it executed an operation of its own, or answered a reserved word. -/
theorem serve_cases {p : Port} {s t : State} (h : serve p s = .next t) :
    ((portOf p s).pending = none ∧ t = s) ∨
    (∃ w i, (portOf p s).pending = some w ∧ decode w = .instr i ∧ i.port = p ∧
      exec i (takeCommand p s) = .next t) ∨
    (∃ w, (portOf p s).pending = some w ∧ t = answerReserved p (takeCommand p s)) := by
  simp only [serve] at h
  split at h
  · cases h; exact .inl ⟨by assumption, rfl⟩
  · rename_i w hw
    split at h
    · rename_i i hi
      refine .inr (.inl ⟨w, i, hw, ?_, ?_, h⟩) <;> simp only [acceptedOn] at hi <;> split at hi
      · rename_i j hj; split at hi <;> simp_all
      · cases hi
      · split at hi
        · simp_all
        · cases hi
      · cases hi
    · cases h; exact .inr (.inr ⟨w, hw, rfl⟩)

/-- A port with a word that decodes to an operation of its own runs it. -/
theorem serve_instr {p : Port} {s : State} {w : Command} {i : Instr} (hw : (portOf p s).pending = some w)
    (hd : decode w = .instr i) (hp : i.port = p) : serve p s = exec i (takeCommand p s) := by
  simp [serve, hw, acceptedOn, hd, hp]

/-- A port with a word that is no operation of its own answers zero and changes nothing. -/
theorem serve_reserved {p : Port} {s : State} {w : Command} (hw : (portOf p s).pending = some w)
    (hd : acceptedOn p w = none) : serve p s = .next (answerReserved p (takeCommand p s)) := by
  simp [serve, hw, hd]

/-- The sample port never stops. -/
theorem serve_sample_not_refused (s : State) : ¬ ∃ r, serve .sample s = .refused r := by
  rintro ⟨r, h⟩
  simp only [serve] at h
  split at h
  · cases h
  · split at h
    · rename_i w _ _ i hi
      have hdom : i.inDomain = true := by
        simp only [acceptedOn] at hi
        split at hi
        · split at hi
          · cases hi; rename_i hp
            cases i <;> simp_all [Instr.port, Instr.inDomain]
          · cases hi
        · cases hi
      have := (exec_refused_iff (i := i) (s := takeCommand .sample s)).mp ⟨r, h⟩
      simp [hdom] at this
    · cases h

/-- The control port stops exactly on an operand outside the specification. -/
theorem serve_control_refused_iff (s : State) : (∃ r, serve .control s = .refused r) ↔
    ∃ w i, s.cport.pending = some w ∧ decode w = .instr i ∧ i.inDomain = false := by
  constructor
  · rintro ⟨r, h⟩
    simp only [serve, portOf_control] at h
    split at h
    · cases h
    · rename_i w hw
      split at h
      · rename_i i hi
        refine ⟨w, i, hw, ?_, exec_refused_iff.mp ⟨r, h⟩⟩
        simp only [acceptedOn] at hi
        split at hi
        · split at hi <;> simp_all
        · cases hi
      · cases h
  · rintro ⟨w, i, hw, hd, hdom⟩
    have hp : i.port = .control := by cases i <;> simp_all [Instr.inDomain, Instr.port]
    rw [serve_instr (p := .control) hw hd hp]
    exact exec_refused_iff.mpr hdom

theorem quiet_iff (s : State) : quiet s = true ↔ s.sport.pending = none ∧ s.cport.pending = none := by
  simp [quiet, Option.isNone_iff_eq_none]

theorem assertReset_quiet {s : State} (hs : s.sport.pending = none) (hc : s.cport.pending = none) :
    assertReset s = .next (resetMachine s) := by
  simp [assertReset, (quiet_iff s).mpr ⟨hs, hc⟩]

theorem assertReset_busy {s : State} (h : s.sport.pending ≠ none ∨ s.cport.pending ≠ none) :
    assertReset s = .refused .resetInFlight := by
  have : ¬ quiet s = true := fun hq => by
    have := (quiet_iff s).mp hq
    rcases h with h | h
    · exact h this.1
    · exact h this.2
  simp [assertReset, this]

/-- A turn that serves a port. -/
theorem step_serve {s : State} {p : Port} {rest : List Turn} (h : s.turns = .serve p :: rest) :
    step s = serve p { s with turns := rest } := by simp [step, h, takeTurn]

/-- A turn that issues on a free port. -/
theorem step_issue {s : State} {p : Port} {w : Command} {rest : List Turn} (h : s.turns = .issue p w :: rest)
    (hp : (portOf p s).pending = none) : step s = .next (issueCommand p w { s with turns := rest }) := by
  cases p <;> simp only [portOf_sample, portOf_control] at hp <;> simp [step, h, takeTurn, issue, hp]

/-- Every way a step can lead to a next state. -/
theorem step_cases {s t : State} (h : step s = .next t) :
    (∃ p rest, s.turns = .serve p :: rest ∧ serve p { s with turns := rest } = .next t) ∨
    (∃ p w rest, s.turns = .issue p w :: rest ∧ (portOf p s).pending = none ∧
      t = issueCommand p w { s with turns := rest }) ∨
    (∃ rest, s.turns = .reset :: rest ∧ s.sport.pending = none ∧ s.cport.pending = none ∧
      t = resetMachine { s with turns := rest }) ∨
    (s.turns = [] ∧ ∃ p d, serve p { s with draws := d } = .next t) := by
  simp only [step] at h
  split at h
  · rename_i hnil
    refine .inr (.inr (.inr ⟨hnil, ?_⟩))
    simp only [unscheduled] at h
    split at h
    · exact ⟨.sample, s.draws, h⟩
    · split at h
      · exact ⟨.control, s.draws, h⟩
      · split at h
        · exact ⟨.sample, _, h⟩
        · exact ⟨.control, _, h⟩
  · rename_i u rest hu
    cases u with
    | issue p w =>
      simp only [takeTurn, issue] at h
      split at h
      · rename_i hp
        cases h; refine .inr (.inl ⟨p, w, rest, hu, ?_, rfl⟩)
        cases p <;> exact hp
      · cases h
    | serve p => exact .inl ⟨p, rest, hu, h⟩
    | reset =>
      by_cases hq : quiet { s with turns := rest } = true
      · simp only [takeTurn, assertReset, hq, if_true] at h
        cases h
        simp only [quiet, Bool.and_eq_true, Option.isNone_iff_eq_none] at hq
        exact .inr (.inr (.inl ⟨rest, hu, hq.1, hq.2, rfl⟩))
      · simp [takeTurn, assertReset, hq] at h

/-- A port that is served changes a channel or a cell only by executing and answering the operation it holds. -/
theorem serve_changes {p : Port} {s t : State} (h : serve p s = .next t) :
    (t.chans = s.chans ∧ (∀ i : Fin 4, t.params[i].cur = s.params[i].cur) ∧ t.srate.cur = s.srate.cur) ∨
    (∃ w i v, (portOf p s).pending = some w ∧ decode w = .instr i ∧ i.port = p ∧
      exec i (takeCommand p s) = .next t ∧
      portOf p t = { pending := none, responses := (portOf p s).responses ++ [v] }) := by
  rcases serve_cases h with ⟨-, rfl⟩ | ⟨w, i, h1, h2, rfl, h4⟩ | ⟨w, h1, rfl⟩
  · exact .inl ⟨rfl, fun _ => rfl, rfl⟩
  · right
    have ha : ∃ v, portOf i.port t = { pending := none, responses := (portOf i.port s).responses ++ [v] } := by
      rcases exec_cases h4 with ⟨ch, x, rfl, c, -, rfl⟩ | ⟨ch, x, rfl, -, rfl⟩ | ⟨a, v, rfl, j, -, -, rfl⟩ |
        ⟨a, v, rfl, -, rfl⟩ | ⟨a, v, rfl, rfl⟩ | ⟨r, rfl, -, rfl⟩
      · exact ⟨_, rfl⟩
      · exact ⟨_, rfl⟩
      all_goals simp [Instr.port]
    obtain ⟨v, hv⟩ := ha
    exact ⟨w, i, v, h1, h2, rfl, h4, hv⟩
  · have hc := respond_cur p noValue (takeCommand p s)
    exact .inl ⟨by simp [answerReserved], fun i => by simpa [answerReserved] using hc.1 i i.isLt,
      by simpa [answerReserved] using hc.2⟩

end Sys2Proof.Machine
end

