-- ==== Sys2Proof/Laws/Sample.lean ====
section
/-!
SUPPORT. The clock, the levels and the cells: each part of the invariant, kept by the operation that touches it.
-/

namespace Sys2Proof.Machine

/-! ### Sums and differences of values that are not negative -/

theorem fVal_of_neg_false {a : F} (h : fNeg a = false) : fVal a = (fMag a : Int) := by simp [fVal, h]

theorem clockOk_iff {a : F} : clockOk a = true ↔ fIsNaN a = false ∧ 0 ≤ fVal a := by simp [clockOk]

theorem legalRate_iff {a : F} : legalRate a = true ↔ fIsFinite a = true ∧ 0 < fVal a := by simp [legalRate]

theorem fNeg_false_of_pos {a : F} (h : 0 < fVal a) : fNeg a = false := by
  by_contra hc
  have : fNeg a = true := by simpa using hc
  simp only [fVal, this, if_true] at h; omega

/-- The increment of the clock: finite, not negative, and the rate's magnitude divided by 33144, rounded. -/
theorem rateStep_spec (q : F) {r : F} (h : legalRate r = true) :
    fIsFinite (fdiv q r 0x47017800#32) = true ∧ fNeg (fdiv q r 0x47017800#32) = false ∧
      fEnc (fdiv q r 0x47017800#32) = roundEnc (fMag r) 33144 := by
  obtain ⟨hf, hp⟩ := legalRate_iff.mp h
  have hu := unit_pos
  have h0 : fMag 0x47017800#32 ≠ 0 := by rw [emu_facts.2.2]; omega
  have he : roundEnc (fMag r * unit) (33144 * unit) = roundEnc (fMag r) 33144 :=
    le_antisymm (roundEnc_mono (by omega) (by omega) (le_of_eq (by ring)))
      (roundEnc_mono (by omega) (by omega) (le_of_eq (by ring)))
  rw [fdiv_finite q hf emu_facts.1 h0, emu_facts.2.1, emu_facts.2.2, fNeg_false_of_pos hp]
  refine ⟨?_, by simp, by rw [fEnc_roundPack, he]⟩
  have : roundEnc (fMag r) 33144 ≤ fEnc r := roundEnc_le (by omega) (Nat.le_mul_of_pos_right _ (by omega))
  simp only [fIsFinite, decide_eq_true_eq] at hf ⊢
  rw [fEnc_roundPack, he]; omega

/-- The sum of a clock and a finite value that is not negative is a clock. -/
theorem clockOk_fadd (q : F) {a b : F} (ha : clockOk a = true) (hb : fIsFinite b = true)
    (hb0 : 0 ≤ fVal b) : clockOk (fadd q a b) = true := by
  obtain ⟨h1, h2⟩ := clockOk_iff.mp ha
  by_cases hi : fIsInf a = true
  · have : fadd q a b = a := by simp [fadd, h1, not_isNaN_of_finite hb, hi, not_isInf_of_finite hb]
    rw [this]; exact ha
  · have hf := finite_of_not h1 (by simpa using hi)
    refine clockOk_iff.mpr ⟨fIsNaN_fadd q hf hb, ?_⟩
    rw [fVal_fadd q hf hb]
    exact mul_nonneg (Int.sign_nonneg_iff.mpr (by omega)) (by omega)

/-- A clock of at least 1.0 less 1.0 is a clock. -/
theorem clockOk_fsub_one (q : F) {a : F} (ha : clockOk a = true) (h : flt a 0x3F800000#32 = false) :
    clockOk (fsub q a 0x3F800000#32) = true := by
  obtain ⟨h1, h2⟩ := clockOk_iff.mp ha
  have hge : (unit : Int) ≤ fVal a := by
    have hn : fIsNaN 0x3F800000#32 = false := not_isNaN_of_finite one_facts.1
    simp [flt, h1, hn, fVal_one] at h; exact h
  by_cases hi : fIsInf a = true
  · have hflip : fIsFinite (fFlip 0x3F800000#32) = true := by rw [finite_flip]; exact one_facts.1
    have : fsub q a 0x3F800000#32 = a := by
      simp [fsub, fadd, h1, not_isNaN_of_finite one_facts.1, hi, not_isNaN_of_finite hflip,
        not_isInf_of_finite hflip]
    rw [this]; exact ha
  · have hf := finite_of_not h1 (by simpa using hi)
    have hflip : fIsFinite (fFlip 0x3F800000#32) = true := by rw [finite_flip]; exact one_facts.1
    rw [fsub_finite q hf one_facts.1]
    refine clockOk_iff.mpr ⟨fIsNaN_fadd q hf hflip, ?_⟩
    rw [fVal_fadd q hf hflip, fVal_flip, fVal_one]
    exact mul_nonneg (Int.sign_nonneg_iff.mpr (by omega)) (by omega)

/-! ### The clock of a `SAMPLE` -/

theorem clockOk_clkNext (d : Nat) {r : Reads} (hr : legalRate r.rate = true) {c : Channel}
    (h : clockOk c.clk = true) : clockOk (clkNext d r c) = true := by
  obtain ⟨h1, h2, -⟩ := rateStep_spec (quietNaN (d + 4)) hr
  exact clockOk_fadd _ h h1 (le_of_le_of_eq (by omega) (fVal_of_neg_false h2).symm)

theorem stepped_eq (clk : F) : stepped clk = !flt clk 0x3F800000#32 := rfl

theorem clockOk_clkThreshold (d : Nat) {clk : F} (h : clockOk clk = true) :
    clockOk (clkThreshold d clk) = true := by
  by_cases hs : flt clk 0x3F800000#32 = true
  · simpa [clkThreshold, stepped_eq, hs] using h
  · have hs' : flt clk 0x3F800000#32 = false := by simpa using hs
    simp only [clkThreshold, stepped_eq, hs', Bool.not_false, if_true]
    exact clockOk_fsub_one _ h hs'

/-- The sum of two finite values that are not negative, as an encoding. -/
theorem fadd_nonneg (q : F) {a b : F} (ha : fIsFinite a = true) (hb : fIsFinite b = true)
    (ha0 : 0 ≤ fVal a) (hb0 : 0 ≤ fVal b) :
    fEnc (fadd q a b) = roundEnc (fMag a + fMag b) 1 ∧ fVal (fadd q a b) = (fMag (fadd q a b) : Int) := by
  have hE := fEnc_fadd q ha hb
  have hV := fVal_fadd q ha hb
  have h1 := fVal_natAbs a
  have h2 := fVal_natAbs b
  have hs : (fVal a + fVal b).natAbs = fMag a + fMag b := by omega
  rw [hs] at hE hV
  refine ⟨hE, ?_⟩
  rw [fMag, hE, hV]
  rcases Nat.eq_zero_or_pos (fMag a + fMag b) with h0 | h0
  · rw [h0, roundEnc_zero (by omega)]; simp [encMag]
  · rw [Int.sign_eq_one_of_pos (by omega), one_mul]

/-- A clock at or above 1.0 is exactly one for which the encode step runs. -/
theorem stepped_iff {clk : F} (h : clockOk clk = true) : stepped clk = true ↔ (unit : Int) ≤ fVal clk := by
  have h1 := (clockOk_iff.mp h).1
  have hn : fIsNaN 0x3F800000#32 = false := not_isNaN_of_finite one_facts.1
  simp [stepped_eq, flt, h1, hn, fVal_one]

/-! ### The elements of a channel after an encode step -/

@[simp] theorem encodeStep_qi (d : Nat) (k : Work) (x : F) (c : Channel) : (encodeStep d k x c).qi = c.qi := rfl

@[simp] theorem encodeStep_qc (d : Nat) (k : Work) (x : F) (c : Channel) : (encodeStep d k x c).qc = c.qc := rfl

@[simp] theorem encodeStep_clk (d : Nat) (k : Work) (x : F) (c : Channel) :
    (encodeStep d k x c).clk = c.clk := rfl

@[simp] theorem encodeStep_zr (d : Nat) (k : Work) (x : F) (c : Channel) :
    (encodeStep d k x c).zr = zeroRun (encComp d x k.ds k.gain) c.zr := rfl

@[simp] theorem encodeStep_dr (d : Nat) (k : Work) (x : F) (c : Channel) : (encodeStep d k x c).dr
    = clampInt (encLevel (encBit (encComp d x k.ds k.gain) c.dr k.ds) c.dr) (-k.ds) k.ds := rfl

@[simp] theorem encodeStep_dout (d : Nat) (k : Work) (x : F) (c : Channel) : (encodeStep d k x c).dout
    = clampInt (c.dout + deltaVal c.qc[c.qi]) (-k.ds) k.ds := rfl

@[simp] theorem encodeStep_qb (d : Nat) (k : Work) (x : F) (c : Channel) (j : Nat) (h : j < Config.QLEN) :
    (encodeStep d k x c).qb[j]
      = if c.qi.val = j then encBit (encComp d x k.ds k.gain) c.dr k.ds else c.qb[j] := by
  simp only [encodeStep, Vector.getElem_set]

/-- A cursor below 31 moves on by one. -/
theorem nextCursor_val {qi : Fin Config.QLEN} (h : qi.val + 1 < Config.QLEN) :
    (nextCursor qi).val = qi.val + 1 := by simp [nextCursor, h]

/-! ### The elements of a channel after a `SAMPLE` -/

@[simp] theorem advance_dr (w ew : Int) (c : Channel) : (advance w ew c).dr = c.dr := by
  simp only [advance]; split <;> rfl

@[simp] theorem advance_dout (w ew : Int) (c : Channel) : (advance w ew c).dout = c.dout := by
  simp only [advance]; split <;> rfl

@[simp] theorem advance_zr (w ew : Int) (c : Channel) : (advance w ew c).zr = c.zr := by
  simp only [advance]; split <;> rfl

@[simp] theorem advance_qb (w ew : Int) (c : Channel) : (advance w ew c).qb = c.qb := by
  simp only [advance]; split <;> rfl

@[simp] theorem advance_clk (w ew : Int) (c : Channel) : (advance w ew c).clk = c.clk := by
  simp only [advance]; split <;> rfl

@[simp] theorem sampleNext_dr (d : Nat) (r : Reads) (x : F) (c : Channel) :
    (sampleNext d r x c).dr = (afterEnc d r x c).dr := by simp only [sampleNext]; split <;> simp

@[simp] theorem sampleNext_dout (d : Nat) (r : Reads) (x : F) (c : Channel) :
    (sampleNext d r x c).dout = (afterEnc d r x c).dout := by simp only [sampleNext]; split <;> simp

@[simp] theorem sampleNext_zr (d : Nat) (r : Reads) (x : F) (c : Channel) :
    (sampleNext d r x c).zr = (afterEnc d r x c).zr := by simp only [sampleNext]; split <;> simp

@[simp] theorem sampleNext_qb (d : Nat) (r : Reads) (x : F) (c : Channel) :
    (sampleNext d r x c).qb = (afterEnc d r x c).qb := by simp only [sampleNext]; split <;> simp

@[simp] theorem afterEnc_clk (d : Nat) (r : Reads) (x : F) (c : Channel) :
    (afterEnc d r x c).clk = clkThreshold d (clkNext d r c) := by
  simp only [afterEnc]; split <;> rfl

@[simp] theorem sampleNext_clk (d : Nat) (r : Reads) (x : F) (c : Channel) :
    (sampleNext d r x c).clk = clkThreshold d (clkNext d r c) := by
  simp only [sampleNext]; split <;> simp

/-- Without an encode step only the clock moves. -/
theorem sampleNext_held {d : Nat} {r : Reads} {c : Channel} (h : stepped (clkNext d r c) = false) (x : F) :
    sampleNext d r x c = { c with clk := clkNext d r c } := by
  simp [sampleNext, afterEnc, clkThreshold, h]

theorem afterEnc_held {d : Nat} {r : Reads} {c : Channel} (h : stepped (clkNext d r c) = false) (x : F) :
    afterEnc d r x c = { c with clk := clkNext d r c } := by
  simp [afterEnc, clkThreshold, h]

theorem afterEnc_stepped {d : Nat} {r : Reads} {c : Channel} (h : stepped (clkNext d r c) = true) (x : F) :
    afterEnc d r x c
      = encodeStep d (derive d r) x { c with clk := clkThreshold d (clkNext d r c) } := by
  simp [afterEnc, h]

theorem sampleNext_stepped {d : Nat} {r : Reads} {c : Channel} (h : stepped (clkNext d r c) = true) (x : F) :
    sampleNext d r x c = advance (derive d r).w (derive d r).ew (afterEnc d r x c) := by
  simp [sampleNext, h]

/-! ### The levels -/

theorem clampInt_bounds {v lo hi : Int} (h : lo ≤ hi) : lo ≤ clampInt v lo hi ∧ clampInt v lo hi ≤ hi := by
  simp only [clampInt]; split
  · omega
  · split <;> omega

theorem derive_ds (d : Nat) {r : Reads} (h : r.Legal) : 1 ≤ (derive d r).ds ∧ (derive d r).ds ≤ 256 :=
  deriveDs_spec d h.2.1

/-- The window length and the modulus derived from legal reads. -/
theorem derive_window (d : Nat) {r : Reads} (h : r.Legal) : ∃ k : Nat, k ≤ 32 ∧ (derive d r).w = (k : Int) ∧
    (derive d r).ew = (if k = 0 then 8 else (k : Int)) := by
  obtain ⟨k, hk, e⟩ := isWindowStep_iff.mp h.2.2.1
  refine ⟨k, hk, ?_, ?_⟩
  · show deriveW d r.p2 = _; rw [e]; exact deriveW_windowStep d hk
  · show effectiveWindow (deriveW d r.p2) = _; rw [e]; exact effectiveWindow_windowStep d hk

/-- After an encode step both levels lie within the depth. -/
theorem afterEnc_levels {d : Nat} {r : Reads} (hr : r.Legal) (x : F) {c : Channel}
    (h : stepped (clkNext d r c) = true) :
    (-(derive d r).ds ≤ (afterEnc d r x c).dr ∧ (afterEnc d r x c).dr ≤ (derive d r).ds) ∧
      (-(derive d r).ds ≤ (afterEnc d r x c).dout ∧ (afterEnc d r x c).dout ≤ (derive d r).ds) := by
  rw [afterEnc_stepped h]
  have := derive_ds d hr
  exact ⟨clampInt_bounds (by omega), clampInt_bounds (by omega)⟩

/-- The levels after a `SAMPLE` lie within -256..256 if they did before. -/
theorem afterEnc_ok (d : Nat) {r : Reads} (hr : r.Legal) (x : F) {c : Channel} (h : c.Ok) :
    (afterEnc d r x c).Ok := by
  obtain ⟨h1, h2, h3, h4, h5⟩ := h
  have hclk : clockOk (afterEnc d r x c).clk = true := by
    rw [afterEnc_clk]; exact clockOk_clkThreshold _ (clockOk_clkNext d hr.2.2.2.2 h5)
  cases hs : stepped (clkNext d r c)
  · rw [afterEnc_held hs] at hclk ⊢; exact ⟨h1, h2, h3, h4, hclk⟩
  · have hl := afterEnc_levels hr x hs
    have := derive_ds d hr
    exact ⟨by omega, by omega, by omega, by omega, hclk⟩

/-- A `SAMPLE` with legal reads keeps the bounds of its channel. -/
theorem sampleNext_ok (d : Nat) {r : Reads} (hr : r.Legal) (x : F) {c : Channel} (h : c.Ok) :
    (sampleNext d r x c).Ok := by
  obtain ⟨h1, h2, h3, h4, h5⟩ := afterEnc_ok d hr x h
  refine ⟨?_, ?_, ?_, ?_, ?_⟩ <;> simp_all

/-! ### The reconstructed level -/

/-- The integers 0..256 as binary32 values. -/
theorem i2f_depth : ∀ k ∈ List.range 257, fIsFinite (i2f (k : Int)) = true ∧ fNeg (i2f (k : Int)) = false ∧
    fMag (i2f (k : Int)) = k * unit := by decide +kernel

theorem i2f_level_table : ∀ k ∈ List.range 257, fIsFinite (i2f (-(k : Int))) = true ∧
    fMag (i2f (-(k : Int))) = k * unit ∧ fVal (i2f (-(k : Int))) = -(k : Int) * unit := by decide +kernel

/-- The levels as binary32 values: exact. -/
theorem i2f_level {n : Int} (h1 : -256 ≤ n) (h2 : n ≤ 256) :
    fIsFinite (i2f n) = true ∧ fMag (i2f n) = n.natAbs * unit ∧ fVal (i2f n) = n * unit := by
  rcases Int.le_total 0 n with h | h
  · obtain ⟨k, rfl⟩ : ∃ k : Nat, n = k := ⟨n.toNat, by omega⟩
    obtain ⟨a, b, c⟩ := i2f_depth k (List.mem_range.mpr (by omega))
    exact ⟨a, by rw [c, Int.natAbs_natCast], by rw [fVal_of_neg_false b, c]; push_cast; ring⟩
  · obtain ⟨k, rfl⟩ : ∃ k : Nat, n = -(k : Int) := ⟨(-n).toNat, by omega⟩
    obtain ⟨a, b, c⟩ := i2f_level_table k (List.mem_range.mpr (by omega))
    exact ⟨a, by rw [b, Int.natAbs_neg, Int.natAbs_natCast], c⟩

theorem i2f_depth_pos {ds : Int} (h1 : 1 ≤ ds) (h2 : ds ≤ 256) : fIsFinite (i2f ds) = true ∧
    fNeg (i2f ds) = false ∧ fMag (i2f ds) = ds.natAbs * unit ∧ fMag (i2f ds) ≠ 0 := by
  obtain ⟨k, rfl⟩ : ∃ k : Nat, ds = k := ⟨ds.toNat, by omega⟩
  obtain ⟨a, b, c⟩ := i2f_depth k (List.mem_range.mpr (by omega))
  refine ⟨a, b, by rw [c, Int.natAbs_natCast], ?_⟩
  rw [c]; exact Nat.mul_ne_zero (by omega) (by have := unit_pos; omega)

/-- `REC` of bounded levels is finite, does not depend on the draw, and is at most 256.0 in magnitude; at most
1.0 where the accumulator lies within the depth; +0.0 where the accumulator is 0. -/
theorem recLevel_spec {ds dout : Int} (h1 : 1 ≤ ds) (h2 : ds ≤ 256) (h3 : -256 ≤ dout) (h4 : dout ≤ 256)
    (d zr : Nat) : fIsFinite (recLevel d ds dout zr) = true ∧
      (∀ d', recLevel d ds dout zr = recLevel d' ds dout zr) ∧
      (-ds ≤ dout → dout ≤ ds → fMag (recLevel d ds dout zr) ≤ unit) ∧
      (dout = 0 → recLevel d ds dout zr = 0x00000000#32) := by
  have hu := unit_pos
  obtain ⟨a1, a2, a3, a4⟩ := i2f_depth_pos h1 h2
  obtain ⟨b1, b2, b3⟩ := i2f_level h3 h4
  simp only [recLevel]
  cases hg : gateOpen zr
  · simp only [Bool.false_eq_true, if_false, forall_const, config_patterns.1]
    exact ⟨zero_facts.1, trivial, fun _ _ => by rw [zero_facts.2.2]; omega, fun _ => trivial⟩
  simp only [if_true]
  rw [fdiv_finite _ b1 a1 a4, b2]
  have hpos : 0 < fMag (i2f ds) := Nat.pos_of_ne_zero a4
  have hds : unit ≤ fMag (i2f ds) := by rw [a3]; exact Nat.le_mul_of_pos_left _ (by omega)
  refine ⟨?_, ?_, ?_, ?_⟩
  · have e256 : encMag 1132462080 = 256 * unit := by decide
    have : roundEnc (dout.natAbs * unit * unit) (fMag (i2f ds)) ≤ 1132462080 := by
      refine roundEnc_le hpos ?_
      rw [e256]
      calc dout.natAbs * unit * unit ≤ 256 * unit * unit :=
            Nat.mul_le_mul_right _ (Nat.mul_le_mul_right _ (by omega))
        _ ≤ 256 * unit * fMag (i2f ds) := Nat.mul_le_mul_left _ hds
    simp only [fIsFinite, fEnc_roundPack, decide_eq_true_eq]
    rw [infEnc_val]; omega
  · intro d'; rw [fdiv_finite _ b1 a1 a4, b2]
  · intro h5 h6
    rw [fMag, fEnc_roundPack, ← one_facts.2.2.2.2, encMag_le_iff]
    refine roundEnc_le hpos ?_
    rw [one_facts.2.2.2.2, a3]
    calc dout.natAbs * unit * unit = unit * (dout.natAbs * unit) := by ring
      _ ≤ unit * (ds.natAbs * unit) := Nat.mul_le_mul_left _ (Nat.mul_le_mul_right _ (by omega))
  · intro h0
    subst h0
    have e0 : roundEnc (Int.natAbs 0 * unit * unit) (fMag (i2f ds)) = 0 := by
      simpa using roundEnc_zero hpos
    have n0 : fNeg (i2f 0) = false := (i2f_depth 0 (List.mem_range.mpr (by omega))).2.1
    rw [roundPack, e0, n0, a2]; rfl

/-- The working values of legal reads do not depend on the draws. -/
theorem derive_draw (d d' : Nat) {r : Reads} (h : r.Legal) : derive d r = derive d' r := by
  obtain ⟨k, hk, e⟩ := isWindowStep_iff.mp h.2.2.1
  simp only [derive, deriveGain_draw d d' h.1, deriveDs_draw d d' h.2.1, e, deriveW_windowStep _ hk]

/-- `SAMPLE` of a bounded channel reconstructs a finite level, whatever the input. -/
theorem sampleLevel_spec (d : Nat) {r : Reads} (hr : r.Legal) (x : F) {c : Channel} (h : c.Ok) :
    fIsFinite (sampleLevel d r x c) = true ∧
      (stepped (clkNext d r c) = true → fMag (sampleLevel d r x c) ≤ unit) := by
  have hd := derive_ds d hr
  obtain ⟨-, -, h3, h4, -⟩ := afterEnc_ok d hr x h
  obtain ⟨a, -, b, -⟩ := recLevel_spec hd.1 hd.2 h3 h4 d (afterEnc d r x c).zr
  refine ⟨a, fun hs => ?_⟩
  obtain ⟨-, c1, c2⟩ := afterEnc_levels hr x hs
  exact b c1 c2

/-! ### Draws: which NaN an operation delivers does not reach the state -/

theorem encComp_draw (d d' : Nat) (x : F) (ds : Int) (g : F) : encComp d x ds g = encComp d' x ds g :=
  f2iTrunc_same (fmul_same (isNaN_quietNaN _) (isNaN_quietNaN _)
    (fmul_same (isNaN_quietNaN _) (isNaN_quietNaN _) (.refl _) (.refl _)) (.refl _))

theorem clkNext_draw (d d' : Nat) {r : Reads} (hr : legalRate r.rate = true) {c : Channel}
    (h : clockOk c.clk = true) : clkNext d r c = clkNext d' r c :=
  SameUpToNaN.eq_of_not (fadd_same (isNaN_quietNaN _) (isNaN_quietNaN _) (.refl _)
    (fdiv_same (isNaN_quietNaN _) (isNaN_quietNaN _) (.refl _) (.refl _)))
    (clockOk_iff.mp (clockOk_clkNext d hr h)).1

theorem clkThreshold_draw (d d' : Nat) {clk : F} (h : clockOk clk = true) :
    clkThreshold d clk = clkThreshold d' clk := by
  simp only [clkThreshold]
  split
  · rename_i hs
    have hs' : flt clk 0x3F800000#32 = false := by simpa [stepped_eq] using hs
    exact SameUpToNaN.eq_of_not (fsub_same (isNaN_quietNaN _) (isNaN_quietNaN _) (.refl _) (.refl _))
      (clockOk_iff.mp (clockOk_fsub_one _ h hs')).1
  · rfl

/-- The output sample as the four operations of `MIX`. -/
theorem sampleOut_eq (d : Nat) (r : Reads) (x : F) (c : Channel) : sampleOut d r x c =
    fdiv (quietNaN (d + 15)) (fadd (quietNaN (d + 14))
      (fmul (quietNaN (d + 10)) (sampleLevel d r x c) r.p3)
      (fmul (quietNaN (d + 13)) (fmul (quietNaN (d + 12)) x (fsub (quietNaN (d + 11)) 0x3F800000#32 r.p3))
        (deriveGain d r.p0))) (deriveGain d r.p0) := rfl

/-- The wet product is finite. -/
theorem wet_finite (d : Nat) {r : Reads} (hr : r.Legal) (x q : F) {c : Channel} (h : c.Ok) :
    fIsFinite (fmul q (sampleLevel d r x c) r.p3) = true :=
  (fmul_le q (sampleLevel_spec d hr x h).1 (inUnit_finite hr.2.2.2.1) (inUnit_mag hr.2.2.2.1)).1

/-! ### Runs of one channel -/

theorem sampleRun_succ (d : Nat → Nat) (r : Nat → Reads) (x : Nat → F) (c : Channel) (n : Nat) :
    sampleRun d r x c (n + 1) = sampleNext (d n) (r n) (x n) (sampleRun d r x c n) := rfl

theorem runSteps_eq (d : Nat → Nat) (r : Nat → Reads) (x : Nat → F) (c : Channel) (n : Nat) :
    runSteps d r x c n = stepped (clkNext (d n) (r n) (sampleRun d r x c n)) := rfl

theorem stepCount_succ (d : Nat → Nat) (r : Nat → Reads) (x : Nat → F) (c : Channel) (n : Nat) :
    stepCount d r x c (n + 1) = stepCount d r x c n + if runSteps d r x c n = true then 1 else 0 := by
  simp only [stepCount, List.range_succ, List.filter_append, List.length_append]
  congr 1
  by_cases h : runSteps d r x c n = true <;> simp [h]

/-! ### Cells -/

theorem fresh_all {p : F → Bool} {v : F} (h : p v = true) : (Cell.fresh v).All p := ⟨h, by simp [Cell.fresh]⟩

theorem fresh_kept (b : Bool) (v : F) : (Cell.fresh v).Kept b := by simp [Cell.Kept, Cell.fresh]

theorem Cell.All.write {p : F → Bool} {c : Cell} (h : c.All p) {v : F} (hv : p v = true) (b : Bool) :
    (c.write b v).All p := by
  refine ⟨hv, fun e he => ?_⟩
  simp only [Cell.write, List.mem_filter, List.mem_cons] at he
  rcases he.1 with rfl | he
  · exact h.1
  · exact h.2 e he

theorem Cell.All.settle {p : F → Bool} {c : Cell} (h : c.All p) : c.settle.All p :=
  ⟨h.1, fun e he => h.2 e (List.mem_filter.mp he).1⟩

theorem Cell.All.age {p : F → Bool} {c : Cell} (h : c.All p) : c.age.All p := by
  refine ⟨h.1, fun e he => ?_⟩
  simp only [Cell.age, List.mem_filter, List.mem_map] at he
  obtain ⟨⟨a, ha, rfl⟩, -⟩ := he
  exact h.2 a ha

theorem Cell.kept_write (b : Bool) (v : F) (c : Cell) : (c.write b v).Kept b :=
  fun _ he => (List.mem_filter.mp he).2

theorem Cell.kept_settle (c : Cell) : c.settle.Kept false := fun _ he => (List.mem_filter.mp he).2

theorem Cell.kept_age (c : Cell) : c.age.Kept true := fun _ he => (List.mem_filter.mp he).2

/-- With no `SAMPLE` outstanding and `STALE_MAX` 0 no earlier value is kept. -/
theorem Cell.Kept.past_nil {c : Cell} (h : c.Kept false) : c.past = [] := by
  rcases hp : c.past with _ | ⟨e, es⟩
  · rfl
  · have := h e (by rw [hp]; exact List.mem_cons_self)
    simp [Cell.keeps, Config.STALE_MAX] at this

theorem Cell.Kept.busy {c : Cell} (h : c.Kept false) : c.Kept true := by
  have := Cell.Kept.past_nil h; intro e he; rw [this] at he; cases he

theorem Cell.settle_cell (c : Cell) : c.settle = Cell.fresh c.cur := by
  have := Cell.Kept.past_nil c.kept_settle
  cases h : c.settle with | mk cur past => ?_
  have h1 : c.settle.cur = c.cur := rfl
  rw [h] at this h1
  simp only [Cell.fresh]; simp_all

/-- A read gives one of the values the cell holds. -/
theorem Cell.readWith_mem (c : Cell) (pick : Nat) : c.readWith pick ∈ c.values := by
  simp only [Cell.readWith]
  split
  · simp [Cell.values]
  · have : pick % c.values.length < c.values.length := Nat.mod_lt _ (by simp [Cell.values])
    rw [List.getD_eq_getElem _ _ this]; exact List.getElem_mem this

theorem Cell.sampleRead_mem (c : Cell) (d j : Nat) : c.sampleRead d j ∈ c.values := c.readWith_mem _

theorem Cell.sampleRead_of_past_nil {c : Cell} (h : c.past = []) (d j : Nat) : c.sampleRead d j = c.cur := by
  simp [Cell.sampleRead, Cell.readWith, h]

theorem Cell.All.read {p : F → Bool} {c : Cell} (h : c.All p) (d j : Nat) : p (c.sampleRead d j) = true := by
  have := c.sampleRead_mem d j
  simp only [Cell.values, List.mem_cons, List.mem_map] at this
  rcases this with e | ⟨a, ha, e⟩
  · rw [e]; exact h.1
  · rw [← e]; exact h.2 a ha

/-- The reads of a `SAMPLE` are legal where the cells are. -/
theorem readCells_legal {s : State} (hp : ∀ i : Fin 4, s.params[i].All (legalParam i))
    (hr : s.srate.All legalRate) : (readCells s).Legal :=
  ⟨(hp 0).read s.draws 0, (hp 1).read s.draws 1, (hp 2).read s.draws 2, (hp 3).read s.draws 3,
    hr.read s.draws 4⟩

theorem Cell.settle_of_past_nil {c : Cell} (h : c.past = []) : c.settle = c := by
  rw [Cell.settle_cell]; cases c; simp only at h; subst h; rfl

/-- With `STALE_MAX` = 0 a `SAMPLE` just issued may read no earlier value. -/
theorem Cell.age_past (c : Cell) : c.age.past = [] := by
  refine List.eq_nil_iff_forall_not_mem.mpr fun e he => ?_
  obtain ⟨hm, hk⟩ := List.mem_filter.mp he
  obtain ⟨e', -, rfl⟩ := List.mem_map.mp hm
  simp [Cell.keeps, Config.STALE_MAX] at hk

theorem Cell.age_of_past_nil {c : Cell} (h : c.past = []) : c.age = c := by
  cases c; simp only at h; subst h; rfl

theorem currentReads_param (s : State) (i : Fin 4) : (currentReads s).param i = s.params[i].cur := by
  fin_cases i <;> rfl

theorem readCells_param (s : State) (i : Fin 4) :
    (readCells s).param i = s.params[i].sampleRead s.draws i.val := by
  fin_cases i <;> rfl

/-- Where no cell keeps an earlier value a `SAMPLE` reads the current ones. -/
theorem readCells_current {s : State} (h : ∀ i : Fin 4, s.params[i].past = []) (h' : s.srate.past = []) :
    readCells s = currentReads s := by
  have h0 : s.params[0].past = [] := h 0
  have h1 : s.params[1].past = [] := h 1
  have h2 : s.params[2].past = [] := h 2
  have h3 : s.params[3].past = [] := h 3
  simp only [readCells, currentReads, Cell.sampleRead_of_past_nil h0, Cell.sampleRead_of_past_nil h1,
    Cell.sampleRead_of_past_nil h2, Cell.sampleRead_of_past_nil h3, Cell.sampleRead_of_past_nil h']

/-- With no command outstanding on the sample port no cell keeps an earlier value. -/
theorem State.Inv.past_nil {s : State} (h : s.Inv) (hp : s.sport.pending = none) :
    (∀ i : Fin 4, s.params[i].past = []) ∧ s.srate.past = [] := by
  have hb : sampleBusy s = false := by simp [sampleBusy, hp]
  obtain ⟨-, -, -, h1, h2⟩ := h
  rw [hb] at h1 h2
  exact ⟨fun i => (h1 i).past_nil, h2.past_nil⟩

/-! ### Reset -/

theorem resetParam_legal (i : Fin 4) : legalParam i (resetParam i) = true := by
  have hz : inUnit Config.ZERO = true := by decide
  simp only [legalParam, resetParam]
  by_cases h : i = 2
  · subst h
    have hlt := Nat.mod_lt (Config.pResetDraw 2).toNat (show 0 < Config.WIN_MAX + 1 by decide)
    have hk : (Config.pResetDraw 2).toNat % (Config.WIN_MAX + 1) ≤ 32 := by
      simp only [Config.WIN_MAX] at *; omega
    simpa using (windowStep_spec hk).2.2.2
  · have h' : i.val ≠ 2 := fun e => h (Fin.ext e)
    simp only [h, h', if_false]
    split <;> simp_all

theorem resetRate_legal : legalRate resetRate = true := by
  have hf : legalRate Config.F_EMU = true := by decide
  simp only [resetRate]; split <;> simp_all

theorem Channel.reset_ok : Channel.reset.Ok := ⟨by decide, by decide, by decide, by decide, by decide⟩

/-- What `SETP` stores in a slot is a legal value of the slot. -/
theorem storedValue_legal (d : Nat) (i : Fin 4) {v : F} (h : inUnit v = true) :
    legalParam i (storedValue d i v) = true := by
  simp only [legalParam, storedValue]
  split
  · obtain ⟨h1, h2⟩ := quant_spec d h
    rw [h1]; exact (windowStep_spec h2).2.2.2
  · exact h

end Sys2Proof.Machine
end

