-- ==== Sys2Proof/Tests/Slice0.lean ====
section
/-!
SUPPORT. Tests of the model on values taken from the spec, and for every obligation that has hypotheses a
concrete state and operands that meet them all. V<n> names a table of 95_test_vectors.md.
-/

namespace Sys2Proof.Machine

/- One test at a time: a `decide +kernel` waits for the theorems before it, and many waiting at once would hold
a thread each. -/
set_option Elab.async false

/-! ### Helpers -/

/-- A state with the given cells, both channels alike, nothing outstanding. -/
def vecState (p0 p1 p2 p3 rate : F) (c : Channel) : State :=
  { params := #v[Cell.fresh p0, Cell.fresh p1, Cell.fresh p2, Cell.fresh p3]
    srate := Cell.fresh rate
    chans := Vector.replicate Config.NCH c
    sport := PortState.idle
    cport := PortState.idle
    turns := []
    draws := 0 }

/-- The setting of the source's scenario (R63, program P1): `P = (0.25, 0.0, 0.0, 1.0)`, 44100 Hz. -/
def scenario (c : Channel) : State :=
  vecState 0x3E800000#32 0x00000000#32 0x00000000#32 0x3F800000#32 0x472C4400#32 c

/-- The reads of that setting. -/
def scenarioReads : Reads :=
  { p0 := 0x3E800000#32, p1 := 0x00000000#32, p2 := 0x00000000#32, p3 := 0x3F800000#32, rate := 0x472C4400#32 }

/-- A word outstanding on a port. -/
def withPending (p : Port) (w : Command) (s : State) : State :=
  setPort p { pending := some w, responses := [] } s

/-- A window with the given entries at its head and 0 in the rest. -/
def window (bs : List Delta) : Vector Delta Config.QLEN := Vector.ofFn fun i => bs.getD i.val .zero

/-- The last response on a port. -/
def lastResponse (p : Port) (s : State) : Option Response := (portOf p s).responses.getLast?

/-- A property of the next state; false of a stop. -/
def ifNext (o : Host.Outcome State Fault Refusal) (p : State → Bool) : Bool :=
  match o with
  | .next t => p t
  | .fault _ => false
  | .refused _ => false

/-! ### Well-formedness and operand domains: an ill-formed term for each check -/

theorem test_wf_refuses_missing_channel :
    (Instr.sample 2#8 0x3F000000#32).wf = false ∧ (Instr.sample 255#8 0x3F000000#32).wf = false ∧
      (Instr.sample 1#8 0x3F000000#32).wf = true := by decide

theorem test_inDomain_refuses :
    (Instr.setp 1#8 0x3FC00000#32).inDomain = false ∧ (Instr.setp 3#8 0x7FC00000#32).inDomain = false ∧
      (Instr.setp 0#8 0x80000001#32).inDomain = false ∧ (Instr.setrate 0x00000000#32).inDomain = false ∧
      (Instr.setrate 0xC72C4400#32).inDomain = false ∧ (Instr.setrate 0x7F800000#32).inDomain = false ∧
      (Instr.setrate 0x7FC00000#32).inDomain = false := by decide +kernel

theorem test_inDomain_admits :
    (Instr.setp 0#8 0x80000000#32).inDomain = true ∧ (Instr.setp 4#8 0x7FC00000#32).inDomain = true ∧
      (Instr.setp 1#8 0x3F800000#32).inDomain = true ∧ (Instr.setrate 0x00000001#32).inDomain = true := by
  decide +kernel

/-! ### Decoding (V1; R53 to R57, R36) -/

/-- `SAMPLE 1, -0.25`, written bit by bit from R50 and R53. -/
theorem test_decode_sample : decode
    0b00000001_00000001_10111110100000000000000000000000#48 = .instr (.sample 1#8 0xBE800000#32) := by decide

/-- `SETP 1, 0.5` (R54). -/
theorem test_decode_setp : decode
    0b00000010_00000001_00111111000000000000000000000000#48 = .instr (.setp 1#8 0x3F000000#32) := by decide

/-- `GETP 2` (R55). -/
theorem test_decode_getp : decode
    0b00000011_00000010_00000000000000000000000000000000#48 = .instr (.getp 2#8) := by decide

/-- `SETRATE 44100.0` (R56). -/
theorem test_decode_setrate : decode
    0b00000100_00000000_01000111001011000100010000000000#48 = .instr (.setrate 0x472C4400#32) := by decide

/-- R36: `SETRATE 44100.0` is `00 44 2C 47 00 04` in bytes. -/
theorem test_bytes : commandBytes (encode (.setrate 0x472C4400#32))
    = [0x00#8, 0x44#8, 0x2C#8, 0x47#8, 0x00#8, 0x04#8] := by decide

theorem test_response_bytes : responseBytes 0x472C4400#32 = [0x00#8, 0x44#8, 0x2C#8, 0x47#8] ∧
    hostIndex 3 = 3#8 ∧ hostIndex (-1) = 0xFF#8 ∧ hostIndex 256 = 0xFF#8 := by decide

theorem test_decodeTableWord :
    decodeTableWord 48 0x010000000000 = some (.sample 0#8 0#32) ∧
      decodeTableWord 48 0x020000000000 = some (.setp 0#8 0#32) ∧
      decodeTableWord 48 0x030000000000 = some (.getp 0#8) ∧
      decodeTableWord 48 0x040000000000 = some (.setrate 0#32) ∧
      decodeTableWord 48 0x050000000000 = none ∧ decodeTableWord 48 0 = none := by decide

theorem test_short_bytes : decodeBytes [0x00#8, 0x44#8] = (.reserved .truncated, [0x00#8, 0x44#8]) := by decide

/-! ### The data path on the spec's vectors -/

/-- V2: gain and depth. -/
theorem test_derive :
    deriveGain 0 0x3E99999A#32 = 0x3F99999A#32 ∧ deriveGain 0 0x00000001#32 = 0x00000004#32 ∧
      deriveGain 0 0x80000000#32 = 0x80000000#32 ∧ deriveDs 0 0x3B808081#32 = 2 ∧
      deriveDs 0 0x3B7F9724#32 = 1 ∧ deriveDs 0 0x3F7FFFFF#32 = 255 ∧ deriveDs 0 0x3F800000#32 = 256 := by
  decide +kernel

/-- R86: the quantisation, a tie going up. -/
theorem test_quant :
    quant 0 0x3DCCCCCD#32 = 0x3DC00000#32 ∧ quant 0 0x3C7FFFFF#32 = 0x00000000#32 ∧
      quant 0 0x3C800000#32 = 0x3D000000#32 ∧ quant 0 0x3F7C0000#32 = 0x3F800000#32 := by decide +kernel

/-- V4: the clock at 44100 Hz and at 22050 Hz. -/
theorem test_clock :
    clkThreshold 0 (clkAdvance 0 0x472C4400#32 0x3F7DDE44#32) = 0x3FA93ED8#32 ∧
      clkAdvance 0 0x46AC4400#32 0x3EA93ED8#32 = 0x3F7EEF22#32 ∧ stepped 0x3F7EEF22#32 = false := by
  decide +kernel

/-- V5: truncation toward zero, two roundings, saturation, NaN. -/
theorem test_comp :
    encComp 0 0xBF333333#32 4 0x3F800000#32 = -2 ∧ encComp 0 0xBE4CCCCD#32 4 0x3F800000#32 = 0 ∧
      encComp 0 0x3E99999A#32 128 0x3F99999A#32 = 46 ∧ encComp 0 0x4A371B00#32 256 0x40800000#32 = 2147483647 ∧
      encComp 0 0xFF800000#32 1 0x3F800000#32 = -2147483648 := by decide +kernel

/-- V6: the bit decision at the ceiling and the floor. -/
theorem test_bit :
    encBit 1 1 1 = .down ∧ encBit 0 0 1 = .up ∧ encBit (-9) (-4) 4 = .up ∧ encBit (-9) (-3) 4 = .down ∧
      clampInt (encLevel (encBit 300 200 4) 200) (-4) 4 = 4 := by decide

/-- V7: the level and the gate. -/
theorem test_rec :
    recLevel 0 3 1 0 = 0x3EAAAAAB#32 ∧ recLevel 0 1 (-1) 15 = 0xBF800000#32 ∧
      recLevel 0 1 (-1) 16 = 0x00000000#32 ∧ recLevel 0 1 4 0 = 0x40800000#32 := by decide +kernel

/-- V8: a reversed commit of four entries, and the identity commit of all 32. -/
theorem test_commit :
    commit 4 (window [.up, .up, .down, .up]) (window [.down, .down, .down, .down, .up])
        = window [.up, .down, .up, .up, .up] ∧
      commit 0 (window [.up, .up, .up, .up, .down, .down, .down, .down, .up])
          (window [.zero, .zero, .zero, .zero, .zero, .zero, .zero, .zero, .down])
        = window [.up, .up, .up, .up, .down, .down, .down, .down, .up] := by decide +kernel

/-- V9 rows 6, 7, 9 and 14. -/
theorem test_mix :
    mixOut 0 0x00000000#32 0x00000000#32 0x3EE2DB64#32 0x3F99999A#32 = 0x3EE2DB63#32 ∧
      mixOut 0 0x3E800000#32 0x3E99999A#32 0xBF19999A#32 0x3F99999A#32 = 0xBEB70A3F#32 ∧
      mixOut 0 0x3F800000#32 0x3F800000#32 0x3F000000#32 0x00000000#32 = 0x7F800000#32 ∧
      mixOut 0 0x3F800000#32 0x3F800000#32 0x00000000#32 0x00000004#32 = 0x7F800000#32 := by decide +kernel

/-! ### One step of each instruction -/

/-- V9, row 16: `(+0) + (-0) = +0`; and V9, row 11: a negative overflow by division by zero. -/
theorem test_mix_signs :
    mixOut 0 0x00000000#32 0x00000000#32 0x80000000#32 0x3F800000#32 = 0x00000000#32 ∧
      mixOut 0 0xBF800000#32 0x3F800000#32 0x3F000000#32 0x00000000#32 = 0xFF800000#32 := by decide +kernel

/-- The constants of rule R48. -/
theorem test_constants : Config.ZERO = 0x00000000#32 ∧ Config.ONE = 0x3F800000#32 ∧
    Config.AMP_SCALE = 0x40800000#32 ∧ Config.WIN_STEPS = 0x42000000#32 ∧
    Config.DEPTH_SCALE = 0x437F0000#32 ∧ Config.F_EMU = 0x47017800#32 := config_patterns

/-- R63, worked example: the first `SAMPLE 0, 1.0` of the scenario. -/
theorem test_sample_first : ifNext (exec (.sample 0#8 0x3F800000#32) (scenario Channel.reset)) (fun t =>
    lastResponse .sample t == some 0x00000000#32 && t.chans[0].clk == 0x3EA93ED8#32 && t.chans[0].dr == 1 &&
      t.chans[0].qb[0] == .up && t.chans[0].qi == 1 && t.chans[1] == Channel.reset) = true := by
  decide +kernel

/-- V8: `QI = 20` with the window shortened to 4 wraps and commits four entries, reversed. -/
theorem test_sample_shortened :
    ifNext (exec (.sample 1#8 0x00000000#32)
      (vecState 0x3E800000#32 0x00000000#32 0x3E000000#32 0x3F800000#32 0x472C4400#32
        { Channel.reset with qi := 20, qb := window [.down, .up, .up, .up] })) (fun t =>
    t.chans[1].qi == 0 && t.chans[1].qc == window [.up, .up, .up, .down] &&
      t.chans[1].qb[20] == .up) = true := by decide +kernel

/-- V10: `SETP 2, 0.1` stores 0.09375 and touches no other cell. -/
theorem test_setp_quantises : ifNext (exec (.setp 2#8 0x3DCCCCCD#32) (scenario Channel.reset)) (fun t =>
    t.params[2] == Cell.fresh 0x3DC00000#32 && t.params[0] == Cell.fresh 0x3E800000#32 &&
      lastResponse .control t == some 0x00000000#32) = true := by decide +kernel

/-- V10: `SETP 0, -0.0` keeps the sign. -/
theorem test_setp_minus_zero : ifNext (exec (.setp 0#8 0x80000000#32) (scenario Channel.reset)) (fun t =>
    t.params[0] == Cell.fresh 0x80000000#32) = true := by decide +kernel

/-- V10: `GETP 0` answers the stored bits, `GETP 255` zero. -/
theorem test_getp :
    ifNext (exec (.getp 0#8) (scenario Channel.reset)) (fun t => lastResponse .control t == some 0x3E800000#32) ∧
      ifNext (exec (.getp 255#8) (scenario Channel.reset))
        (fun t => lastResponse .control t == some 0x00000000#32) := by decide +kernel

/-- V10: `SETRATE 48000.0` leaves `CLK`. -/
theorem test_setrate : ifNext (exec (.setrate 0x473B8000#32)
    (scenario { Channel.reset with clk := 0x3F000000#32 })) (fun t =>
    t.srate == Cell.fresh 0x473B8000#32 && t.chans[0].clk == 0x3F000000#32) = true := by decide +kernel

/-- V10: `SETRATE 0.0` and `SETP 1, 1.5` have no meaning. -/
theorem test_refused_operands :
    exec (.setrate 0x00000000#32) (scenario Channel.reset) = .refused .rateOutsideDomain ∧
      exec (.setp 1#8 0x3FC00000#32) (scenario Channel.reset) = .refused .paramOutsideDomain :=
  ⟨exec_setrate_outside (by decide +kernel) _, exec_setp_outside (i := 1) (by decide) (by decide +kernel) _⟩

/-! ### The assembler (R60, R61) -/

theorem test_assemble_lines :
    assembleLine ['S', 'E', 'T', 'P', ' ', '2', ',', ' ', '0', '.', '1', ' ', ';', ' ', 'w'] =
        some [.setp 2#8 0x3DCCCCCD#32] ∧
      assembleLine ['S', 'A', 'M', 'P', 'L', 'E', ' ', '1', ',', ' ', '-', '0', '.', '2', '5'] =
        some [.sample 1#8 0xBE800000#32] ∧
      assembleLine ['S', 'A', 'M', 'P', 'L', 'E', ' ', '2', ',', ' ', '0', '.', '5'] = none := by
  decide +kernel

theorem test_assemble_repeat :
    assembleLine ['R', 'E', 'P', 'E', 'A', 'T', ' ', '2', ',', ' ', 'G', 'E', 'T', 'P', ' ', '3'] =
      some [.getp 3#8, .getp 3#8] := by decide +kernel

theorem test_expand_process : expand (.process 1 [[0x3F800000#32], [0x00000000#32]]) =
    [.sample 0#8 0x3F800000#32, .sample 1#8 0x00000000#32] := by decide +kernel

/-! ### States and reads that meet the hypotheses of the obligations -/

theorem test_scenarioReads_legal : scenarioReads.Legal := by
  refine ⟨?_, ?_, ?_, ?_, ?_⟩ <;> decide +kernel

theorem test_scenario_inv : (scenario Channel.reset).Inv := by
  refine ⟨fun i => ?_, fresh_all (by decide +kernel), fun c => ?_, fun i => ?_, fresh_kept _ _⟩
  · fin_cases i <;> exact fresh_all (by decide +kernel)
  · fin_cases c <;> exact Channel.reset_ok
  · fin_cases i <;> exact fresh_kept _ _

/-- The same with a window parameter of `k/32` and the cursor given. -/
theorem test_window_inv (k : Nat) (hk : k ≤ 32) (qi : Fin 32) :
    (vecState 0x3E800000#32 0x00000000#32 (windowStep k) 0x3F800000#32 0x472C4400#32
      { Channel.reset with qi := qi }).Inv := by
  refine ⟨fun i => ?_, fresh_all (by decide +kernel), fun c => ?_, fun i => ?_, fresh_kept _ _⟩
  · fin_cases i
    · exact fresh_all (by decide +kernel)
    · exact fresh_all (by decide +kernel)
    · exact fresh_all (windowStep_spec hk).2.2.2
    · exact fresh_all (by decide +kernel)
  · fin_cases c <;> exact Channel.reset_ok
  · fin_cases i <;> exact fresh_kept _ _

theorem test_witness_DecodeInvertsEncode :
    (Instr.sample 1#8 0x3F000000#32).wf = true ∧ (Instr.setp 255#8 0x7FC00000#32).wf = true ∧
      (Instr.sample 2#8 0x3F000000#32).wf = false := by decide

theorem test_witness_EncodeInvertsDecode :
    decode 0x0101BE800000#48 = .instr (.sample 1#8 0xBE800000#32) ∧
      decode 0x03FF00000000#48 = .instr (.getp 255#8) := by decide

theorem test_witness_BytesAreLittleEndian : 0 < 6 ∧ 5 < 6 := by decide

/-- One word for each clause of R57, each at the edge of its range. -/
theorem test_witness_ReservedCommand : ∀ e ∈ ([(.control, 0x000000000000#48), (.control, 0x050000000000#48),
      (.control, 0xFFFFFFFFFFFF#48), (.sample, 0x01023F000000#48), (.control, 0x030200000001#48),
      (.control, 0x0401472C4400#48), (.control, 0x01003F800000#48), (.sample, 0x02003E800000#48),
      (.sample, 0x040045FA0000#48)] : List (Port × Command)),
    (portOf e.1 (withPending e.1 e.2 State.reset)).pending = some e.2 ∧
    (let op := e.2.toNat / 2 ^ 40
     let sel := e.2.toNat / 2 ^ 32 % 256
     let data := e.2.toNat % 2 ^ 32
     op = 0 ∨ 5 ≤ op ∨ (op = 1 ∧ 2 ≤ sel) ∨ (op = 3 ∧ data ≠ 0) ∨ (op = 4 ∧ sel ≠ 0) ∨
       (op = 1 ∧ e.1 = .control) ∨ (2 ≤ op ∧ op ≤ 4 ∧ e.1 = .sample)) := by decide +kernel

theorem test_witness_StepRunsTheDecodedInstr :
    let s := { withPending .sample 0x01013F000000#48 State.reset with turns := [.serve .sample] }
    s.turns = .serve .sample :: [] ∧ (portOf .sample s).pending = some 0x01013F000000#48 ∧
      decode 0x01013F000000#48 = .instr (.sample 1#8 0x3F000000#32) ∧
      (Instr.sample 1#8 0x3F000000#32).port = .sample := ⟨rfl, rfl, by decide, rfl⟩

theorem test_witness_FetchWordRunsNext :
    decodeTableWord 48 0x02043F000000 = some (.setp 4#8 0x3F000000#32) := by decide

/-- The five schedules of the statement; the control command's operand lies outside its domain in the last. -/
theorem test_witness_StepRefusesExactlyWhen :
    ({ State.reset with turns := [.issue .sample 0#48] }).turns = .issue .sample 0#48 :: [] ∧
      ({ State.reset with turns := [.reset] }).turns = .reset :: [] ∧
      ({ State.reset with turns := [.serve .sample] }).turns = .serve .sample :: [] ∧
      ({ State.reset with turns := [.serve .control] }).turns = .serve .control :: [] ∧
      (withPending .control 0x02013FC00000#48 State.reset).turns = [] ∧
      decode 0x02013FC00000#48 = .instr (.setp 1#8 0x3FC00000#32) ∧
      (Instr.setp 1#8 0x3FC00000#32).inDomain = false := by
  refine ⟨rfl, rfl, rfl, rfl, rfl, by decide, by decide +kernel⟩

/-- A served `GETP 1`; also the witness of `PortsKeepTheirRights` for the control port. -/
theorem test_witness_ServedCommandAnswersOnce :
    let s := withPending .control 0x030100000000#48 State.reset
    (portOf .control s).pending = some 0x030100000000#48 ∧ ∃ t, serve .control s = .next t :=
  ⟨rfl, _, (serve_instr (p := .control) (i := .getp 1#8) rfl (by decide) rfl).trans
    (exec_getp (idx := 1#8) (i := 1) (by decide) _)⟩

theorem test_witness_PortsKeepTheirRights :
    ∃ t, serve .sample (withPending .sample 0x01013F000000#48 State.reset) = .next t :=
  ⟨_, (serve_instr (p := .sample) (i := .sample 1#8 0x3F000000#32) rfl (by decide) rfl).trans
    (exec_sample (ch := 1#8) (c := 1) (by decide) _ _)⟩

/-- The same as the step whose turn it is, on either port. -/
theorem test_witness_PortsKeepTheirRights_step :
    (∃ t, step (State.reset.withFetchWord 48 0x01013F000000) = .next t) ∧
      ∃ t, step (State.reset.withFetchWord 48 0x030200000000) = .next t :=
  ⟨⟨_, rfl⟩, ⟨_, rfl⟩⟩

theorem test_witness_OutstandingCommandIsAnswered :
    (withPending .sample 0x01013F000000#48 State.reset).turns = [] ∧
      (withPending .sample 0x01013F000000#48 State.reset).cport.pending = none ∧
      (withPending .sample 0x01013F000000#48 State.reset).sport.pending = some 0x01013F000000#48 ∧
      (withPending .control 0x030100000000#48 State.reset).sport.pending = none ∧
      (withPending .control 0x030100000000#48 State.reset).cport.pending = some 0x030100000000#48 ∧
      (∀ i, decode 0x030100000000#48 = .instr i → i.inDomain = true) := by
  refine ⟨rfl, rfl, rfl, rfl, rfl, fun i hi => ?_⟩
  have : decode 0x030100000000#48 = .instr (.getp 1#8) := by decide
  rw [this] at hi; cases hi; rfl

theorem test_witness_ResetGivesTheResetState :
    let s := { scenario { Channel.reset with dr := 1, zr := 3 } with turns := [.reset] }
    s.turns = .reset :: [] ∧ s.sport.pending = none ∧ s.cport.pending = none := ⟨rfl, rfl, rfl⟩

theorem test_witness_HostDutiesAreRefused :
    let s := { withPending .sample 0#48 State.reset with turns := [.reset] }
    let s' := { withPending .control 0#48 State.reset with turns := [.issue .control 0#48] }
    (s.turns = .reset :: [] ∧ (s.sport.pending ≠ none ∨ s.cport.pending ≠ none)) ∧
      (s'.turns = .issue .control 0#48 :: [] ∧ (portOf .control s').pending ≠ none) :=
  ⟨⟨rfl, Or.inl (by simp [withPending, setPort])⟩, rfl, by simp [withPending, setPort, portOf]⟩

theorem test_witness_EveryStepKeepsBounds :
    ({ scenario Channel.reset with turns := [.issue .sample 0x01003F800000#48] } : State).Inv ∧
      ∃ t, step { scenario Channel.reset with turns := [.issue .sample 0x01003F800000#48] } = .next t :=
  ⟨⟨test_scenario_inv.1, test_scenario_inv.2, test_scenario_inv.3, test_scenario_inv.4, test_scenario_inv.5⟩,
    _, rfl⟩

/-- The edges of the legal operands of the boot sequence, and of `SETP` and `SETRATE`. -/
theorem test_witness_legal_operands :
    legalRate 0x00000001#32 = true ∧ legalRate 0x7F7FFFFF#32 = true ∧ legalRate 0x472C4400#32 = true ∧
      inUnit 0x00000000#32 = true ∧ inUnit 0x80000000#32 = true ∧ inUnit 0x3F800000#32 = true ∧
      inUnit 0x3DCCCCCD#32 = true := by decide +kernel

theorem test_witness_SetpStoresItsSlot :
    (0#8).toNat = (0 : Fin 4).val ∧ (2#8).toNat = (2 : Fin 4).val ∧ (3#8).toNat = (3 : Fin 4).val ∧
      inUnit 0x3DCCCCCD#32 = true ∧ inUnit 0x3F800000#32 = true := by decide +kernel

theorem test_witness_SetpUnknownIndexIsIgnored : 4 ≤ (4#8).toNat ∧ 4 ≤ (255#8).toNat := by decide

theorem test_witness_SetpOutsideDomainIsRefused :
    (3#8).toNat < 4 ∧ fIsNaN 0x7FC00000#32 = true ∧ fVal 0x80000001#32 < 0 ∧
      fVal 0x3F800001#32 > fVal 0x3F800000#32 := by decide +kernel

theorem test_witness_GetpReturnsWhatSetpStored :
    (2#8).toNat < 4 ∧ (3#8).toNat < 4 ∧ inUnit 0x3DCCCCCD#32 = true := by decide +kernel

theorem test_witness_SetrateOutsideDomainIsRefused :
    fIsNaN 0x7FC00000#32 = true ∧ fIsInf 0x7F800000#32 = true ∧ fVal 0x00000000#32 ≤ 0 ∧
      fVal 0x80000000#32 ≤ 0 ∧ fVal 0xC72C4400#32 ≤ 0 := by decide +kernel

/-- Both channels, for every statement about a `SAMPLE` of an existing channel. -/
theorem test_witness_channels :
    (0#8).toNat = (0 : Fin Config.NCH).val ∧ (1#8).toNat = (1 : Fin Config.NCH).val ∧ 2 ≤ (2#8).toNat ∧
      2 ≤ (255#8).toNat := by decide

/-- At 16572 Hz the first sample has no encode step. -/
theorem test_witness_SampleWithoutStepHolds :
    let s := vecState 0x3E800000#32 0x00000000#32 0x00000000#32 0x3F800000#32 0x46817800#32 Channel.reset
    (1#8).toNat = (1 : Fin Config.NCH).val ∧
      flt (clkNext s.draws (readCells s) s.chans[(1 : Fin Config.NCH)]) 0x3F800000#32 = true := by
  decide +kernel

/-- At 44100 Hz it has one. -/
theorem test_witness_SampleEncodeStep :
    let s := scenario Channel.reset
    (0#8).toNat = (0 : Fin Config.NCH).val ∧
      flt (clkNext s.draws (readCells s) s.chans[(0 : Fin Config.NCH)]) 0x3F800000#32 = false := by
  decide +kernel

/-- Each clause: no wrap (cursor 6 of 8), an identity commit (7 of 8), a reversed commit (3 of 4) with entries
`i`, `j` inside the window and one at its end. The states satisfy the invariant by `test_window_inv`. -/
theorem test_witness_SampleMovesTheCursorAndCommits :
    (∀ e ∈ ([(0, 6), (0, 7), (4, 3), (32, 31)] : List (Nat × Fin 32)),
      let s := vecState 0x3E800000#32 0x00000000#32 (windowStep e.1) 0x3F800000#32 0x472C4400#32
        { Channel.reset with qi := e.2 }
      flt (clkNext s.draws (readCells s) s.chans[(0 : Fin Config.NCH)]) 0x3F800000#32 = false ∧
        floorInt (fmul (quietNaN (s.draws + 3)) (readCells s).p2 0x42000000#32) = (e.1 : Int) ∧
        s.chans[(0 : Fin Config.NCH)].qi = e.2) ∧
      ((6 : Int) + 1 < 8) ∧ ((7 : Int) + 1 ≥ 8) ∧ ((3 : Int) + 1 ≥ 4) ∧ ((0 : Int) + 3 + 1 = 4) := by
  decide +kernel

theorem test_witness_DerivedValuesInRange : scenarioReads.Legal := test_scenarioReads_legal

theorem test_witness_WindowLengthOfTheStoredValue : 0 ≤ 32 ∧ 32 ≤ 32 := by decide

/-- The largest rate below 33144.0 and the largest clock below 1.0. -/
theorem test_witness_ClockStaysBelowOne :
    legalRate 0x470177FF#32 = true ∧ fVal 0x470177FF#32 < fVal 0x47017800#32 ∧ clockOk 0x3F7FFFFF#32 = true ∧
      fVal 0x3F7FFFFF#32 < fVal 0x3F800000#32 := by decide +kernel

/-- The rate 33144.0 itself, the clock at 0 and at infinity. -/
theorem test_witness_FastRateStepsEverySample :
    legalRate 0x47017800#32 = true ∧ fVal 0x47017800#32 ≤ fVal 0x47017800#32 ∧ clockOk 0x00000000#32 = true ∧
      clockOk 0x7F800000#32 = true := by decide +kernel

theorem test_witness_LevelsBoundedAfterEncodeStep :
    scenarioReads.Legal ∧ stepped (clkNext 0 scenarioReads { Channel.reset with dr := 200 }) = true :=
  ⟨test_scenarioReads_legal, by decide +kernel⟩

/-- Sixteen samples of value 0.0 in the scenario, from a channel that is not silent. -/
theorem test_witness_SilenceGateCloses :
    let c := { Channel.reset with dout := 1, dr := 1 }
    (∀ i, i ≤ 15 → runSteps (fun _ => 0) (fun _ => scenarioReads) (fun _ => 0#32) c i = true →
      runComp (fun _ => 0) (fun _ => scenarioReads) (fun _ => 0#32) i = 0) ∧
      16 ≤ stepCount (fun _ => 0) (fun _ => scenarioReads) (fun _ => 0#32) c 16 := by
  refine ⟨fun i _ _ => ?_, by decide +kernel⟩
  show runComp (fun _ => 0) (fun _ => scenarioReads) (fun _ => 0#32) 0 = 0
  decide +kernel

/-- The eighth sample of the scenario is still inside the first window. -/
theorem test_witness_WetSignalStartsOneWindowLate :
    (0 ≤ 32) ∧ (∀ i : Nat, ((fun _ => scenarioReads) i).Legal ∧
      ((fun _ => scenarioReads) i : Reads).p2 = windowStep 0) ∧
      stepCount (fun _ => 0) (fun _ => scenarioReads) (fun _ => 0x3F800000#32)
        { Channel.reset with clk := 0#32 } 8 ≤ 8 :=
  have h : scenarioReads.p2 = windowStep 0 := by decide +kernel
  ⟨by omega, fun _ => ⟨test_scenarioReads_legal, h⟩, by decide +kernel⟩

/-- Clauses of the replay: the first window (`n = 7`), the identity order (`n = 8`, `m = 0`), and the reversed
order with a window of 2 (`n = 2`, `m = 1`: `q = 0`, `j = 0`). -/
theorem test_witness_WindowReplaysThePreviousBits :
    let r2 : Reads := { scenarioReads with p2 := windowStep 2 }
    let c := { Channel.reset with clk := 0#32 }
    ((fun _ : Nat => scenarioReads) 0).p2 = windowStep 0 ∧ r2.p2 = windowStep 2 ∧
      runSteps (fun _ => 0) (fun _ => scenarioReads) (fun _ => 0#32) c 7 = true ∧
      stepCount (fun _ => 0) (fun _ => scenarioReads) (fun _ => 0#32) c 7 < 8 ∧
      runSteps (fun _ => 0) (fun _ => scenarioReads) (fun _ => 0#32) c 8 = true ∧
      runSteps (fun _ => 0) (fun _ => scenarioReads) (fun _ => 0#32) c 0 = true ∧
      stepCount (fun _ => 0) (fun _ => scenarioReads) (fun _ => 0#32) c 8
        = stepCount (fun _ => 0) (fun _ => scenarioReads) (fun _ => 0#32) c 0 + 8 ∧
      runSteps (fun _ => 0) (fun _ => r2) (fun _ => 0#32) c 2 = true ∧
      runSteps (fun _ => 0) (fun _ => r2) (fun _ => 0#32) c 1 = true ∧
      stepCount (fun _ => 0) (fun _ => r2) (fun _ => 0#32) c 2 = 2 * (0 + 1) + 0 ∧
      stepCount (fun _ => 0) (fun _ => r2) (fun _ => 0#32) c 1 = 2 * 0 + (2 - 1 - 0) := by decide +kernel

/-- Zero amplitude with a wet product of zero, and with one of 1.0 (the level held, no encode step). -/
theorem test_witness_ZeroAmplitude :
    let r : Reads := { scenarioReads with p0 := 0#32, rate := 0x46817800#32 }
    r.Legal ∧ Channel.reset.Ok ∧ ({ Channel.reset with dout := 1 } : Channel).Ok ∧ fVal r.p0 = 0 ∧
      fIsFinite 0x3F000000#32 = true ∧
      fVal (fmul (quietNaN (0 + 10)) (sampleLevel 0 r 0x3F000000#32 Channel.reset) r.p3) = 0 ∧
      fVal (fmul (quietNaN (0 + 10)) (sampleLevel 0 r 0x3F000000#32 { Channel.reset with dout := 1 }) r.p3)
        ≠ 0 := by
  refine ⟨⟨?_, ?_, ?_, ?_, ?_⟩, Channel.reset_ok, ⟨?_, ?_, ?_, ?_, ?_⟩, ?_, ?_, ?_, ?_⟩ <;> decide +kernel

theorem test_witness_NonFiniteInput :
    scenarioReads.Legal ∧ ({ scenarioReads with p3 := 0x3F7FFFFF#32 } : Reads).Legal ∧ Channel.reset.Ok ∧
      fIsNaN 0x7FC00000#32 = true ∧ fIsInf 0xFF800000#32 = true ∧ fVal scenarioReads.p0 ≠ 0 ∧
      fVal scenarioReads.p3 = fVal 0x3F800000#32 ∧ fVal 0x3F7FFFFF#32 < fVal 0x3F800000#32 := by
  refine ⟨test_scenarioReads_legal, ⟨?_, ?_, ?_, ?_, ?_⟩, Channel.reset_ok, ?_, ?_, ?_, ?_, ?_⟩ <;>
    decide +kernel

/-- V9 row 6: the dry path that is one unit in the last place off. -/
theorem test_witness_DryPassthrough :
    let r : Reads := { scenarioReads with p0 := 0x3E99999A#32, p3 := 0#32 }
    r.Legal ∧ Channel.reset.Ok ∧ fVal r.p3 = 0 ∧ fVal r.p0 ≠ 0 ∧ fIsNaN 0x3EE2DB64#32 = false ∧
      fdiv 0#32 (fmul 0#32 0x3EE2DB64#32 (derive 0 r).gain) (derive 0 r).gain = 0x3EE2DB63#32 ∧
      fVal 0x3EE2DB63#32 ≠ 0 := by
  refine ⟨⟨?_, ?_, ?_, ?_, ?_⟩, Channel.reset_ok, ?_, ?_, ?_, ?_, ?_⟩ <;> decide +kernel

theorem test_witness_WetOutputIsBounded :
    scenarioReads.Legal ∧ Channel.reset.Ok ∧ scenarioReads.p3 = 0x3F800000#32 ∧ fVal scenarioReads.p0 ≠ 0 ∧
      fIsFinite 0x3F800000#32 = true ∧ stepped (clkNext 0 scenarioReads Channel.reset) = true := by
  refine ⟨test_scenarioReads_legal, Channel.reset_ok, ?_, ?_, ?_, ?_⟩ <;> decide +kernel

theorem test_witness_CompBoundIsUnobservable :
    (257 : Int) ≤ 257 ∧ (-256 : Int) ≤ -256 ∧ (256 : Int) ≤ 256 ∧ (1 : Int) ≤ 1 := by decide

/-- Two states that differ in the other channel. -/
theorem test_witness_ChannelsDoNotInteract :
    let s := scenario Channel.reset
    let s' := { s with chans := s.chans.set 1 { Channel.reset with dout := 1 } }
    s.params = s'.params ∧ s.srate = s'.srate ∧ s.draws = s'.draws ∧
      s.chans[(0 : Fin Config.NCH)] = s'.chans[(0 : Fin Config.NCH)] ∧ s.chans ≠ s'.chans := by decide +kernel

theorem test_witness_NaNDraw : scenarioReads.Legal ∧ Channel.reset.Ok :=
  ⟨test_scenarioReads_legal, Channel.reset_ok⟩

theorem test_witness_SamplesOfTwoChannelsCommute :
    (scenario Channel.reset).Inv ∧ (scenario Channel.reset).sport.pending = none ∧ (0#8).toNat < 2 ∧
      (1#8).toNat < 2 ∧ (0#8 : Sel) ≠ 1#8 := ⟨test_scenario_inv, rfl, by decide, by decide, by decide⟩

/-- `SETP 1, 0.5` and `SETRATE 44100.0`, each answered before a `SAMPLE` is issued. -/
theorem test_witness_CompletedWriteIsSeen (i : Instr)
    (h : i = .setp 1#8 0x3F000000#32 ∨ i = .setrate 0x472C4400#32) :
    let s := withPending .control (encode i) (scenario Channel.reset)
    s.Inv ∧ s.sport.pending = none ∧ (0#8).toNat < 2 ∧ s.cport.pending = some (encode i) ∧
      ∃ t u, serve .control s = .next t ∧ issue .sample (encode (.sample 0#8 0x3F800000#32)) t = .next u := by
  refine ⟨⟨test_scenario_inv.1, test_scenario_inv.2, test_scenario_inv.3, test_scenario_inv.4,
    test_scenario_inv.5⟩, rfl, by decide, rfl, ?_⟩
  rcases h with rfl | rfl
  · exact ⟨_, _, (serve_instr (p := .control) (i := .setp 1#8 0x3F000000#32) rfl (by decide) rfl).trans
      (exec_setp (idx := 1#8) (i := 1) (by decide) (by decide +kernel) _), rfl⟩
  · exact ⟨_, _, (serve_instr (p := .control) (i := .setrate 0x472C4400#32) rfl (by decide) rfl).trans
      (exec_setrate (by decide +kernel) _), rfl⟩

/-- `SETP 1, 0.5` and `SETRATE 44100.0`, each executed while a `SAMPLE` is outstanding. -/
theorem test_witness_OverlappingWriteIsSeenOrNot (i : Instr)
    (h : i = .setp 1#8 0x3F000000#32 ∨ i = .setrate 0x472C4400#32) :
    let s := withPending .sample 0x01003F800000#48 (withPending .control (encode i) (scenario Channel.reset))
    s.sport.pending = some 0x01003F800000#48 ∧ (∀ j : Fin 4, s.params[j].past = []) ∧ s.srate.past = [] ∧
      s.cport.pending = some (encode i) ∧ ∃ t, serve .control s = .next t := by
  refine ⟨rfl, fun j => by fin_cases j <;> rfl, rfl, rfl, ?_⟩
  rcases h with rfl | rfl
  · exact ⟨_, (serve_instr (p := .control) (i := .setp 1#8 0x3F000000#32) rfl (by decide) rfl).trans
      (exec_setp (idx := 1#8) (i := 1) (by decide) (by decide +kernel) _)⟩
  · exact ⟨_, (serve_instr (p := .control) (i := .setrate 0x472C4400#32) rfl (by decide) rfl).trans
      (exec_setrate (by decide +kernel) _)⟩

theorem test_witness_SampleReadsAHeldValue :
    let c : Cell := { cur := 0x3F000000#32, past := [(0, 0x3F800000#32)] }
    0x3F000000#32 ∈ c.values ∧ 0x3F800000#32 ∈ c.values ∧ (Cell.fresh 0x3F000000#32).past = [] := by decide

/-- Finite operands, a divisor that is not zero, the largest finite value, whose double overflows, a sum that is
exactly zero and zeros of either sign. -/
theorem test_witness_ArithmeticRoundsToNearest :
    fIsFinite 0x7F7FFFFF#32 = true ∧ fIsFinite 0x00000001#32 = true ∧ fVal 0x00000001#32 ≠ 0 ∧
      fIsInf (fadd 0#32 0x7F7FFFFF#32 0x7F7FFFFF#32) = true ∧
      fIsFinite (fadd 0#32 0x7F7FFFFF#32 0x00000001#32) = true ∧ fIsFinite 0xFF7FFFFF#32 = true ∧
      fVal 0x7F7FFFFF#32 + fVal 0xFF7FFFFF#32 = 0 ∧ fIsFinite 0x80000000#32 = true ∧
      fVal 0x80000000#32 + fVal 0x80000000#32 = 0 := by decide +kernel

theorem test_witness_SpecialResults :
    fIsFinite 0xBF800000#32 = true ∧ fVal 0xBF800000#32 ≠ 0 ∧ fVal 0x80000000#32 = 0 ∧
      fIsInf 0x7F800000#32 = true ∧ fIsInf 0xFF800000#32 = true ∧ fNeg 0x7F800000#32 ≠ fNeg 0xFF800000#32 ∧
      fIsNaN 0xFFC00001#32 = true ∧ fIsNaN 0x3F800000#32 = false ∧ fIsFinite 0x80000000#32 = true ∧
      fNeg 0xFF800000#32 = fNeg 0xFF800000#32 := by decide +kernel

/-- The edges of the ranges of the four conversions: ±2^31, the largest value below 2^31, -0.0 and 32.0. -/
theorem test_witness_Conversions :
    2147483648 * fVal 0x3F800000#32 ≤ fVal 0x4F000000#32 ∧ |fVal 0x4EFFFFFF#32| < 2147483648 * fVal 0x3F800000#32 ∧
      fVal 0xCF000000#32 ≤ -2147483648 * fVal 0x3F800000#32 ∧ fIsNaN 0x7FC00000#32 = true ∧
      fIsNaN 0x4F000000#32 = false ∧ fIsNaN 0xCF000000#32 = false ∧ fIsFinite 0x80000000#32 = true ∧
      0 ≤ fVal 0x80000000#32 ∧ fVal 0x42000000#32 ≤ 32 * fVal 0x3F800000#32 := by decide +kernel

/-- A `SAMPLE`, a `SETP` and a reserved word issued on a free port. -/
theorem test_witness_IssueTurnOnlyPlacesTheWord : ∀ e ∈ ([(.sample, 0x01013F000000#48),
    (.control, 0x02013F000000#48), (.sample, 0x000000000000#48)] : List (Port × Command)),
    ({ State.reset with turns := [.issue e.1 e.2] } : State).turns = .issue e.1 e.2 :: [] ∧
      (portOf e.1 { State.reset with turns := [.issue e.1 e.2] }).pending = none := by
  intro e he
  fin_cases he <;> exact ⟨rfl, rfl⟩

theorem test_witness_IdleStepHoldsTheState :
    State.reset.turns = [] ∧ State.reset.sport.pending = none ∧ State.reset.cport.pending = none ∧
      (portOf .control { State.reset with turns := [.serve .control] }).pending = none := ⟨rfl, rfl, rfl, rfl⟩

/-- A step that executes a `SETP` and changes its slot: 0.25 before, 0.5 after. -/
theorem test_witness_StateChangesOnlyByItsOperation :
    let s := { withPending .control (encode (.setp 0#8 0x3F000000#32)) (scenario Channel.reset) with
      turns := [.serve .control] }
    s.turns.head? ≠ some .reset ∧ s.params[0].cur = 0x3E800000#32 ∧
      ∃ t, step s = .next t ∧ t.params[0].cur = 0x3F000000#32 :=
  ⟨by decide, rfl, _, (step_serve rfl).trans
    ((serve_instr (p := .control) (i := .setp 0#8 0x3F000000#32) rfl (by decide) rfl).trans
      (exec_setp (idx := 0#8) (i := 0) (by decide) (by decide +kernel) _)), rfl⟩

end Sys2Proof.Machine
end

section
/-!
PROOFS. The reset values (rules R7, R27): the legality of the free draws' images, read off slot by slot.
-/

namespace Sys2Proof.Machine

/-- The reset value of every slot but the window's lies in [0,1] (rule R27). -/
theorem inUnit_resetParam {i : Fin 4} (hi : i ≠ 2) : inUnit (resetParam i) = true := by
  simpa only [legalParam, if_neg hi] using resetParam_legal i

/-- The reset value of the window's slot is one of the 33 steps `k/32` (rules R20, R27). -/
theorem isWindowStep_resetParam : isWindowStep (resetParam 2) = true :=
  resetParam_legal 2

/-- Settles O12: each slot's reset value is legal for its slot, and so is the reset rate, whatever is drawn. -/
theorem resetValuesAreLegal : Obligations.ResetValuesAreLegal :=
  ⟨inUnit_resetParam (i := 0) (by decide), inUnit_resetParam (i := 1) (by decide), isWindowStep_resetParam,
    inUnit_resetParam (i := 3) (by decide), resetRate_legal⟩

end Sys2Proof.Machine
end

section
/-!
PROOFS. Cells, channels and ports over one step (rules R24 to R29, R105, R111, R115): what each port can do when it
is served, the bounds every step keeps, and what a step changes by which operation.
-/

namespace Sys2Proof.Machine

/-! ### What each port can do -/

/-- What a port holds does not depend on the turns that remain. -/
@[simp] theorem portOf_turns (p : Port) (s : State) (rest : List Turn) :
    portOf p { s with turns := rest } = portOf p s := by cases p <;> rfl

/-- The sample port, when it is served: nothing, a `SAMPLE` of an existing channel, or the answer zero. -/
theorem serve_sample_cases {s t : State} (h : serve .sample s = .next t) :
    t = s ∨ (∃ c x, t = sampleState c x (takeCommand .sample s)) ∨
      t = respond .sample noValue (takeCommand .sample s) := by
  rcases serve_cases h with ⟨-, rfl⟩ | ⟨w, i, -, -, hp, he⟩ | ⟨w, -, rfl⟩
  · exact .inl rfl
  · rcases exec_cases he with ⟨ch, x, rfl, c, -, rfl⟩ | ⟨ch, x, rfl, -, rfl⟩ | ⟨idx, v, rfl, -⟩ |
      ⟨idx, v, rfl, -⟩ | ⟨idx, v, rfl, -⟩ | ⟨r, rfl, -⟩
    · exact .inr (.inl ⟨c, x, rfl⟩)
    · exact .inr (.inr rfl)
    all_goals cases hp
  · exact .inr (.inr rfl)

/-- The control port, when it is served: nothing, an answer alone, a parameter write, or a rate write. -/
theorem serve_control_cases {s t : State} (h : serve .control s = .next t) :
    t = s ∨ (∃ v, t = respond .control v (takeCommand .control s)) ∨
      (∃ j v, inUnit v = true ∧
        t = respond .control 0x00000000#32 (pWrite j (storedValue s.draws j v) (takeCommand .control s))) ∨
      (∃ r, legalRate r = true ∧ t = respond .control 0x00000000#32 (sWrite r (takeCommand .control s))) := by
  rcases serve_cases h with ⟨-, rfl⟩ | ⟨w, i, -, -, hp, he⟩ | ⟨w, -, rfl⟩
  · exact .inl rfl
  · rcases exec_cases he with ⟨ch, x, rfl, -⟩ | ⟨ch, x, rfl, -⟩ | ⟨idx, v, rfl, j, -, hv, rfl⟩ |
      ⟨idx, v, rfl, -, rfl⟩ | ⟨idx, v, rfl, rfl⟩ | ⟨r, rfl, hr, rfl⟩
    · cases hp
    · cases hp
    · exact .inr (.inr (.inl ⟨j, v, hv, rfl⟩))
    · exact .inr (.inl ⟨_, rfl⟩)
    · exact .inr (.inl ⟨v, rfl⟩)
    · exact .inr (.inr (.inr ⟨r, hr, rfl⟩))
  · exact .inr (.inl ⟨noValue, rfl⟩)

/-- The cell a parameter write replaces. -/
theorem pWrite_params_self (i : Fin 4) (v : F) (s : State) :
    (pWrite i v s).params[i] = (s.params[i]).write (sampleBusy s) v := by simp

/-! ### The bounds (rules R24, R25 (d)), apart from which earlier values are kept -/

/-- The part of the invariant that speaks of values: legal cells and bounded channels. -/
structure State.Bounded (s : State) : Prop where
  params : ∀ i : Fin 4, s.params[i].All (legalParam i)
  srate : s.srate.All legalRate
  chans : ∀ c : Fin Config.NCH, s.chans[c].Ok

/-- The part of the invariant that speaks of which earlier values are kept (rule R39 (b)). -/
structure State.Kept (s : State) : Prop where
  params : ∀ i : Fin 4, s.params[i].Kept (sampleBusy s)
  srate : s.srate.Kept (sampleBusy s)

theorem State.inv_iff {s : State} : s.Inv ↔ s.Bounded ∧ s.Kept := by
  constructor
  · rintro ⟨hp, hr, hc, hkp, hkr⟩
    exact ⟨⟨hp, hr, hc⟩, hkp, hkr⟩
  · rintro ⟨⟨hp, hr, hc⟩, hkp, hkr⟩
    exact ⟨hp, hr, hc, hkp, hkr⟩

/-- The value bounds see the cells and the channels only. -/
theorem State.Bounded.congr {s t : State} (h : s.Bounded) (hp : t.params = s.params)
    (hr : t.srate = s.srate) (hc : t.chans = s.chans) : t.Bounded :=
  ⟨by rw [hp]; exact h.params, by rw [hr]; exact h.srate, by rw [hc]; exact h.chans⟩

theorem State.Bounded.takeCommand {s : State} (h : s.Bounded) (p : Port) : (takeCommand p s).Bounded :=
  h.congr (by simp) (by simp) (by simp)

/-- A function that keeps every cell's values legal keeps the value bounds. -/
theorem State.Bounded.mapCells {s : State} (h : s.Bounded) {f : Cell → Cell}
    (hf : ∀ (q : F → Bool) (c : Cell), c.All q → (f c).All q) : (mapCells f s).Bounded :=
  ⟨fun i => by simpa using hf _ _ (h.params i), hf _ _ h.srate, h.chans⟩

theorem State.Bounded.respond {s : State} (h : s.Bounded) (p : Port) (v : Response) :
    (respond p v s).Bounded := by
  cases p with
  | sample =>
    have hu : ({ s with sport := { s.sport with responses := s.sport.responses ++ [v] } } : State).Bounded :=
      h.congr rfl rfl rfl
    exact hu.mapCells fun _ _ hc => hc.settle
  | control => exact h.congr rfl rfl rfl

/-- A `SAMPLE` reads legal values and so keeps its channel bounded (rule R25). -/
theorem State.Bounded.sampleState {s : State} (h : s.Bounded) (c : Fin Config.NCH) (x : F) :
    (sampleState c x s).Bounded := by
  refine ⟨fun i => ?_, h.srate.settle, fun j => ?_⟩
  · simpa using (h.params i).settle
  · by_cases e : j = c
    · subst e
      simpa using sampleNext_ok s.draws (readCells_legal h.params h.srate) x (h.chans j)
    · rw [sampleState_chan_other e]; exact h.chans j

theorem State.Bounded.pWrite {s : State} (h : s.Bounded) {j : Fin 4} {v : F} (hv : legalParam j v = true) :
    (pWrite j v s).Bounded := by
  refine ⟨fun i => ?_, h.srate, h.chans⟩
  by_cases e : i = j
  · subst e
    rw [pWrite_params_self]; exact (h.params i).write hv _
  · rw [pWrite_params_other e]; exact h.params i

theorem State.Bounded.sWrite {s : State} (h : s.Bounded) {r : F} (hr : legalRate r = true) :
    (sWrite r s).Bounded :=
  ⟨h.params, h.srate.write hr _, h.chans⟩

theorem State.Bounded.issueCommand {s : State} (h : s.Bounded) (p : Port) (w : Command) :
    (issueCommand p w s).Bounded := by
  have hset : (setPort p { portOf p s with pending := some w } s).Bounded := h.congr (by simp) (by simp) (by simp)
  cases p with
  | sample =>
    simp only [Machine.issueCommand]
    split
    · exact hset.mapCells fun _ _ hc => hc.age
    · exact hset
  | control => exact hset

theorem State.Bounded.reset : State.reset.Bounded where
  params i := by simpa using fresh_all (resetParam_legal i)
  srate := fresh_all resetRate_legal
  chans c := by simpa using Channel.reset_ok

theorem State.Bounded.serve {s t : State} (h : s.Bounded) {p : Port} (hs : serve p s = .next t) : t.Bounded := by
  have hu := h.takeCommand p
  cases p with
  | sample =>
    rcases serve_sample_cases hs with rfl | ⟨c, x, rfl⟩ | rfl
    · exact h
    · exact hu.sampleState c x
    · exact hu.respond _ _
  | control =>
    rcases serve_control_cases hs with rfl | ⟨v, rfl⟩ | ⟨j, v, hv, rfl⟩ | ⟨r, hr, rfl⟩
    · exact h
    · exact hu.respond _ _
    · exact (hu.pWrite (storedValue_legal _ _ hv)).respond _ _
    · exact (hu.sWrite hr).respond _ _

/-! ### Which earlier values are kept (rules R39 (b), R40, R41) -/

/-- What is kept depends on the cells and on whether a `SAMPLE` is outstanding. -/
theorem State.Kept.congr {s t : State} (h : s.Kept) (hp : t.params = s.params) (hr : t.srate = s.srate)
    (hs : t.sport.pending = s.sport.pending) : t.Kept := by
  have hb : sampleBusy t = sampleBusy s := by simp only [sampleBusy, hs]
  exact ⟨by rw [hp, hb]; exact h.params, by rw [hr, hb]; exact h.srate⟩

/-- Once the sample port has answered, the cells are settled. -/
theorem State.kept_respond_sample {s : State} (h : s.sport.pending = none) (v : Response) :
    (respond .sample v s).Kept := by
  have hb : sampleBusy (respond .sample v s) = false := by simp [sampleBusy, h]
  refine ⟨fun i => ?_, ?_⟩ <;> rw [hb]
  · simpa using (s.params[i]).kept_settle
  · exact s.srate.kept_settle

theorem State.Kept.pWrite {s : State} (h : s.Kept) (j : Fin 4) (v : F) : (pWrite j v s).Kept := by
  refine ⟨fun i => ?_, h.srate⟩
  by_cases e : i = j
  · subst e
    rw [pWrite_params_self]; exact Cell.kept_write _ _ _
  · rw [pWrite_params_other e]; exact h.params i

theorem State.Kept.sWrite {s : State} (h : s.Kept) (r : F) : (sWrite r s).Kept :=
  ⟨h.params, s.srate.kept_write _ _⟩

/-- A command issued on a free port: a `SAMPLE` ages the cells, and any other word finds them settled. -/
theorem State.Kept.issueCommand {s : State} (h : s.Kept) {p : Port} (hp : (portOf p s).pending = none)
    (w : Command) : (issueCommand p w s).Kept := by
  cases p with
  | control => exact h.congr rfl rfl rfl
  | sample =>
    have hb : sampleBusy s = false := by simpa [sampleBusy] using hp
    have hb' : sampleBusy (Machine.issueCommand .sample w s) = true :=
      congrArg (fun t : PortState => t.pending.isSome) (portOf_issueCommand .sample w s)
    obtain ⟨hk, hkr⟩ := h
    rw [hb] at hk hkr
    refine ⟨fun i => ?_, ?_⟩ <;> rw [hb'] <;> simp only [Machine.issueCommand] <;> split
    · simpa using (s.params[i]).kept_age
    · exact (hk i).busy
    · exact s.srate.kept_age
    · exact hkr.busy

theorem State.kept_resetMachine (s : State) : (resetMachine s).Kept where
  params i := by simpa using fresh_kept _ _
  srate := fresh_kept _ _

theorem State.Kept.serve {s t : State} (h : s.Kept) {p : Port} (hs : serve p s = .next t) : t.Kept := by
  cases p with
  | sample =>
    rcases serve_sample_cases hs with rfl | ⟨c, x, rfl⟩ | rfl
    · exact h
    · exact State.kept_respond_sample rfl _
    · exact State.kept_respond_sample rfl _
  | control =>
    have hu : (takeCommand .control s).Kept := h.congr rfl rfl rfl
    rcases serve_control_cases hs with rfl | ⟨v, rfl⟩ | ⟨j, v, -, rfl⟩ | ⟨r, -, rfl⟩
    · exact h
    · exact hu.congr rfl rfl rfl
    · exact (hu.pWrite j _).congr rfl rfl rfl
    · exact (hu.sWrite r).congr rfl rfl rfl

/-! ### The invariant of a step -/

/-- The invariant speaks of the cells, the channels and the outstanding `SAMPLE` only. -/
theorem State.Inv.congr {s t : State} (h : s.Inv) (hp : t.params = s.params) (hr : t.srate = s.srate)
    (hc : t.chans = s.chans) (hs : t.sport.pending = s.sport.pending) : t.Inv :=
  have ⟨hb, hk⟩ := State.inv_iff.mp h
  State.inv_iff.mpr ⟨hb.congr hp hr hc, hk.congr hp hr hs⟩

theorem State.Inv.serve {s t : State} (h : s.Inv) {p : Port} (hs : serve p s = .next t) : t.Inv :=
  have ⟨hb, hk⟩ := State.inv_iff.mp h
  State.inv_iff.mpr ⟨hb.serve hs, hk.serve hs⟩

theorem State.Inv.issueCommand {s : State} (h : s.Inv) {p : Port} (hp : (portOf p s).pending = none)
    (w : Command) : (issueCommand p w s).Inv :=
  have ⟨hb, hk⟩ := State.inv_iff.mp h
  State.inv_iff.mpr ⟨hb.issueCommand p w, hk.issueCommand hp w⟩

theorem State.inv_resetMachine (s : State) : (resetMachine s).Inv :=
  State.inv_iff.mpr ⟨State.Bounded.reset.congr rfl rfl rfl, State.kept_resetMachine s⟩

/-- Settles O15: a served port, an issue on a free port and a reset each keep the value bounds and what is kept. -/
theorem everyStepKeepsBounds : Obligations.EveryStepKeepsBounds := by
  intro s t h hstep
  rcases step_cases hstep with ⟨p, rest, -, hs⟩ | ⟨p, w, rest, -, hp, rfl⟩ | ⟨rest, -, -, -, rfl⟩ | ⟨-, p, d, hs⟩
  · have h' : ({ s with turns := rest } : State).Inv := h.congr rfl rfl rfl rfl
    exact h'.serve hs
  · have h' : ({ s with turns := rest } : State).Inv := h.congr rfl rfl rfl rfl
    exact h'.issueCommand (by rw [portOf_turns]; exact hp) w
  · exact State.inv_resetMachine _
  · have h' : ({ s with draws := d } : State).Inv := h.congr rfl rfl rfl rfl
    exact h'.serve hs

/-- Settles O14: the state after reset is what reset makes of itself. -/
theorem resetStateSatisfiesBounds : Obligations.ResetStateSatisfiesBounds :=
  (State.inv_resetMachine State.reset).congr rfl rfl rfl rfl

/-- Settles O11: with both ports free the turn is `resetMachine`, whose every element is read off. -/
theorem resetGivesTheResetState : Obligations.ResetGivesTheResetState := by
  intro s rest hturns hs hc
  refine ⟨resetMachine { s with turns := rest }, ?_, fun c => ?_, fun i => ?_, rfl, rfl, rfl, rfl⟩
  · rw [step, hturns]; exact assertReset_quiet hs hc
  · simp
  · simp [Cell.values, Cell.fresh]

/-! ### Idle steps (rule R111) -/

/-- A port with no command outstanding, when it is served, leaves the state as it is. -/
theorem serve_idle {p : Port} {s : State} (h : (portOf p s).pending = none) : serve p s = .next s := by
  simp [serve, h]

/-- Settles O58: both clauses serve a port that holds no command. -/
theorem idleStepHoldsTheState : Obligations.IdleStepHoldsTheState := by
  refine ⟨fun s hturns hs hc => ?_, fun s p rest hturns hp => ?_⟩
  · simp only [step, hturns, unscheduled, hc, Option.isNone_none, if_true]
    exact serve_idle hs
  · rw [step_serve hturns]
    exact serve_idle (by rw [portOf_turns]; exact hp)

/-! ### The rights of the ports (rule R105) -/

theorem serve_control_frame {s t : State} (h : serve .control s = .next t) :
    t.chans = s.chans ∧ t.sport = s.sport := by
  rcases serve_control_cases h with rfl | ⟨v, rfl⟩ | ⟨j, v, -, rfl⟩ | ⟨r, -, rfl⟩ <;> exact ⟨rfl, rfl⟩

theorem serve_sample_frame {s t : State} (h : serve .sample s = .next t) :
    (∀ i : Fin 4, t.params[i].cur = s.params[i].cur) ∧ t.srate.cur = s.srate.cur ∧ t.cport = s.cport := by
  rcases serve_sample_cases h with rfl | ⟨c, x, rfl⟩ | rfl
  · exact ⟨fun _ => rfl, rfl, rfl⟩
  · exact ⟨fun i => by simp, rfl, rfl⟩
  · exact ⟨fun i => by simp, rfl, rfl⟩

/-- Settles O25: the step whose turn a port has is that port's serving, with only the turn taken off. -/
theorem portsKeepTheirRights : Obligations.PortsKeepTheirRights := by
  intro s t p h
  obtain ⟨turns, hserve⟩ : ∃ turns, serve p { s with turns := turns } = .next t := by
    rcases h with h | ⟨rest, hturns, h⟩
    · exact ⟨s.turns, h⟩
    · exact ⟨rest, step_serve hturns ▸ h⟩
  constructor
  · rintro rfl
    obtain ⟨hc, hp⟩ := serve_control_frame hserve
    exact ⟨hc, hp⟩
  · rintro rfl
    obtain ⟨hp, hr, hc⟩ := serve_sample_frame hserve
    exact ⟨hp, hr, hc⟩

/-! ### What a step changes, and by which operation (rules R28, R115) -/

/-- The host's issue changes no cell's current value. -/
theorem issueCommand_cur (p : Port) (w : Command) (s : State) :
    (∀ i : Fin 4, (issueCommand p w s).params[i].cur = s.params[i].cur) ∧
      (issueCommand p w s).srate.cur = s.srate.cur := by
  cases p with
  | control => exact ⟨fun _ => rfl, rfl⟩
  | sample =>
    simp only [issueCommand]
    split
    · exact ⟨fun i => by simp, rfl⟩
    · exact ⟨fun _ => rfl, rfl⟩

/-- The operation was outstanding on its port and has been answered there. -/
def Executed (s t : State) (i : Instr) : Prop :=
  (∃ w, (portOf i.port s).pending = some w ∧ decode w = .instr i) ∧
    ∃ v, portOf i.port t = { pending := none, responses := (portOf i.port s).responses ++ [v] }

/-- Each element of state changes only by the operation that owns it. -/
structure ChangesByOperation (s t : State) : Prop where
  chan : ∀ c : Fin Config.NCH, t.chans[c] ≠ s.chans[c] → ∃ ch x, ch.toNat = c.val ∧ Executed s t (.sample ch x)
  param : ∀ i : Fin 4, t.params[i].cur ≠ s.params[i].cur →
    ∃ idx v, idx.toNat = i.val ∧ Executed s t (.setp idx v)
  rate : t.srate.cur ≠ s.srate.cur → ∃ r, Executed s t (.setrate r)

theorem ChangesByOperation.of_unchanged {s t : State} (hc : t.chans = s.chans)
    (hp : ∀ i : Fin 4, t.params[i].cur = s.params[i].cur) (hr : t.srate.cur = s.srate.cur) :
    ChangesByOperation s t where
  chan c h := absurd (by rw [hc]) h
  param i h := absurd (hp i) h
  rate h := absurd hr h

/-- A served port changes an element of state only by the operation it executes. -/
theorem serve_changesByOperation {p : Port} {s t : State} (h : serve p s = .next t) : ChangesByOperation s t := by
  rcases serve_changes h with ⟨hc, hp, hr⟩ | ⟨w, i, v, hw, hd, rfl, he, hv⟩
  · exact .of_unchanged hc hp hr
  have hex : Executed s t i := ⟨⟨w, hw, hd⟩, v, hv⟩
  rcases exec_cases he with ⟨ch, x, rfl, c, hch, rfl⟩ | ⟨ch, x, rfl, -, rfl⟩ | ⟨idx, v, rfl, j, hj, -, rfl⟩ |
    ⟨idx, v, rfl, -, rfl⟩ | ⟨idx, v, rfl, rfl⟩ | ⟨r, rfl, -, rfl⟩
  · refine ⟨fun c' hne => ⟨ch, x, ?_, hex⟩, fun i hne => absurd (by simp) hne, fun hne => absurd rfl hne⟩
    by_contra hcc
    have hcc' : c' ≠ c := fun e => hcc (by rw [hch, e])
    exact hne (by rw [sampleState_chan_other hcc', takeCommand_chans])
  · exact .of_unchanged rfl (fun i => by simp [answerReserved]) rfl
  · refine ⟨fun c' hne => absurd rfl hne, fun i hne => ⟨idx, v, ?_, hex⟩, fun hne => absurd rfl hne⟩
    by_contra hii
    have hij : i ≠ j := fun e => hii (by rw [hj, e])
    exact hne (congrArg Cell.cur (pWrite_params_other hij _ _))
  · exact .of_unchanged rfl (fun _ => rfl) rfl
  · exact .of_unchanged rfl (fun _ => rfl) rfl
  · exact ⟨fun c' hne => absurd rfl hne, fun i hne => absurd rfl hne, fun _ => ⟨r, hex⟩⟩

/-- Settles O59: of the steps that are no reset an issue changes nothing, and the others serve a port. -/
theorem stateChangesOnlyByItsOperation : Obligations.StateChangesOnlyByItsOperation := by
  intro s t hstep hnoreset
  suffices hch : ChangesByOperation s t from ⟨hch.chan, hch.param, hch.rate⟩
  rcases step_cases hstep with ⟨p, rest, -, hs⟩ | ⟨p, w, rest, -, -, rfl⟩ | ⟨rest, hr, -⟩ | ⟨-, p, d, hs⟩
  · obtain ⟨hc, hp, hr⟩ := serve_changesByOperation hs
    exact ⟨hc, hp, hr⟩
  · have hcur := issueCommand_cur p w { s with turns := rest }
    exact .of_unchanged (issueCommand_chans p w _) hcur.1 hcur.2
  · exact absurd (by rw [hr]; rfl) hnoreset
  · obtain ⟨hc, hp, hr⟩ := serve_changesByOperation hs
    exact ⟨hc, hp, hr⟩

end Sys2Proof.Machine
end

section
/-!
PROOFS. One `SAMPLE` and its channel (rules R18, R24, R25, R29, R63, R69, R109): what it answers and leaves, the
ranges of its working values, and what it does not depend on.
-/

namespace Sys2Proof.Machine

/-! ### Completion and frame (rules R26, R29, R63) -/

/-- The context a `SAMPLE` leaves in its own channel. -/
theorem sampleState_chan_self (c : Fin Config.NCH) (x : F) (s : State) :
    (sampleState c x s).chans[c] = sampleNext s.draws (readCells s) x s.chans[c] := by simp

/-- Settles O26: the state that `exec_sample` names, field by field. -/
theorem sampleCompletesAndKeepsTheRest : Obligations.SampleCompletesAndKeepsTheRest := by
  intro s ch x c hch
  exact ⟨sampleState c x s, exec_sample hch x s, sampleState_chan_self c x s, rfl,
    fun c' hne => sampleState_chan_other hne x s, fun i => by simp, rfl, rfl, rfl⟩

/-- The reads of a `SAMPLE` are settled by the cells and the draw number. -/
theorem readCells_congr {s s' : State} (hp : s.params = s'.params) (hr : s.srate = s'.srate)
    (hd : s.draws = s'.draws) : readCells s = readCells s' := by
  simp only [readCells, hp, hr, hd]

/-- Settles O48: reads and channel agree in the two states, and the answer and the context are made of these. -/
theorem channelsDoNotInteract : Obligations.ChannelsDoNotInteract := by
  intro s s' ch x c hch hp hr hd hc
  have hreads := readCells_congr hp hr hd
  refine ⟨sampleState c x s, sampleState c x s', sampleOut s.draws (readCells s) x s.chans[c],
    exec_sample hch x s, exec_sample hch x s', ?_, rfl, ?_⟩
  · rw [sampleState_chan_self, sampleState_chan_self, hreads, hd, hc]
  · rw [hreads, hd, hc]; rfl

/-! ### The working values (rules R24 (e), R64 to R67) -/

/-- The gain is exactly four times the amplitude (rule R64). -/
theorem fVal_deriveGain (d : Nat) {p : F} (h : inUnit p = true) : fVal (deriveGain d p) = 4 * fVal p := by
  obtain ⟨-, hmag, hneg⟩ := deriveGain_spec d h
  simp only [fVal, hmag, hneg]
  split <;> push_cast <;> ring

theorem fVal_four : fVal 0x40800000#32 = 4 * (unit : Int) := by
  rw [fVal_of_neg_false four_facts.2.1, four_facts.2.2]; push_cast; rfl

/-- Settles O33: the range of each working value is read off its own rule. -/
theorem derivedValuesInRange : Obligations.DerivedValuesInRange := by
  intro d r hr
  obtain ⟨k, hk, hw, hew⟩ := derive_window d hr
  have hds := derive_ds d hr
  obtain ⟨hp0, -, -, hp3, -⟩ := hr
  obtain ⟨-, hp0lo, hp0hi⟩ := inUnit_iff.mp hp0
  obtain ⟨-, hp3lo, hp3hi⟩ := inUnit_iff.mp hp3
  have hgain : fVal (derive d r).gain = 4 * fVal r.p0 := fVal_deriveGain d hp0
  refine ⟨⟨not_isNaN_of_finite (deriveGain_spec d hp0).1, ?_, ?_⟩, hds, ?_, ?_, hp3lo, ?_⟩
  · omega
  · rw [hgain, fVal_four]; omega
  · rw [hw]; omega
  · rw [hew]; split <;> omega
  · rw [fVal_one]; exact hp3hi

/-- Settles O38: `ADV` and `COMMIT` leave both levels as the encode step has clamped them. -/
theorem levelsBoundedAfterEncodeStep : Obligations.LevelsBoundedAfterEncodeStep := by
  intro d r x c hr hs
  obtain ⟨⟨hdr1, hdr2⟩, hdo1, hdo2⟩ := afterEnc_levels hr x hs
  rw [sampleNext_dr, sampleNext_dout]
  exact ⟨hdr1, hdr2, hdo1, hdo2⟩

/-! ### The clock below 1.0 (rules R25, R69) -/

/-- A value that is not negative is below 1.0 exactly when its encoding is below that of 1.0. -/
theorem lt_one_iff_enc {a : F} (h : 0 ≤ fVal a) : fVal a < (unit : Int) ↔ fEnc a < 1065353216 := by
  have hv : fVal a = (encMag (fEnc a) : Int) := by
    have := fVal_natAbs a
    simp only [fMag] at this; omega
  rw [hv, Nat.cast_lt, ← one_facts.2.2.2.2, encMag_lt_iff]

/-- Below 33144 Hz the increment of the clock is at most the value just below 1.0: the rate is at least one step
of its format below 33144.0. -/
theorem rateStep_lt_one (q : F) {r : F} (h : legalRate r = true) (hlt : fVal r < fVal 0x47017800#32) :
    fEnc (fdiv q r 0x47017800#32) < 1065353216 := by
  have hr := (legalRate_iff.mp h).2
  have hmag : fMag r < fMag 0x47017800#32 := by
    have h1 := fVal_of_neg_false (fNeg_false_of_pos hr)
    have h2 := fVal_of_neg_false emu_facts.2.1
    omega
  have henc : fEnc r ≤ 1191278591 := by
    have h1 := encMag_lt_iff.mp hmag
    have h2 : fEnc 0x47017800#32 = 1191278592 := by decide
    omega
  have hquot : encMag 1191278591 ≤ encMag 1065353215 * 33144 := by decide
  rw [(rateStep_spec q h).2.2]
  exact Nat.lt_succ_of_le (roundEnc_le (by omega) (le_trans (encMag_le_iff.mpr henc) hquot))

/-- Two values below 1.0 have a sum at most the value just below 2.0. -/
theorem fEnc_fadd_lt_two (q : F) {a b : F} (ha : 0 ≤ fVal a) (hb : 0 ≤ fVal b) (hfa : fIsFinite a = true)
    (hfb : fIsFinite b = true) (hea : fEnc a < 1065353216) (heb : fEnc b < 1065353216) :
    fEnc (fadd q a b) ≤ 1073741823 := by
  rw [(fadd_nonneg q hfa hfb ha hb).1]
  have hma : fMag a ≤ encMag 1065353215 := encMag_le_iff.mpr (by omega)
  have hmb : fMag b ≤ encMag 1065353215 := encMag_le_iff.mpr (by omega)
  have htwice : encMag 1073741823 = 2 * encMag 1065353215 := by decide
  exact roundEnc_le (by omega) (by omega)

/-- A clock below 2.0 is below 1.0 after `CLK.threshold`. -/
theorem clkThreshold_lt_one (d : Nat) {clk : F} (h : clockOk clk = true) (he : fEnc clk ≤ 1073741823) :
    fVal (clkThreshold d clk) < (unit : Int) := by
  cases hs : stepped clk with
  | false =>
    have hge : ¬ (unit : Int) ≤ fVal clk := fun hge => by simp [(stepped_iff h).mpr hge] at hs
    simp only [clkThreshold, hs, Bool.false_eq_true, if_false]
    omega
  | true =>
    have hge := (stepped_iff h).mp hs
    have hf : fIsFinite clk = true := by
      simp only [fIsFinite, decide_eq_true_eq]; rw [infEnc_val]; omega
    have hflip : fIsFinite (fFlip 0x3F800000#32) = true := by rw [finite_flip]; exact one_facts.1
    have hres := (clockOk_iff.mp (clockOk_clkThreshold d h)).2
    have hthr : clkThreshold d clk = fadd (quietNaN (d + 6)) clk (fFlip 0x3F800000#32) := by
      simp only [clkThreshold, hs, if_true]; exact fsub_finite _ hf one_facts.1
    have hmag : fMag clk ≤ encMag 1073741823 := encMag_le_iff.mpr he
    have hdiff : encMag 1073741823 ≤ unit + encMag 1065353215 := by decide
    have habs := fVal_natAbs clk
    rw [lt_one_iff_enc hres, hthr, fEnc_fadd _ hf hflip, fVal_flip, fVal_one]
    exact Nat.lt_succ_of_le (roundEnc_le (by omega) (by omega))

/-- Settles O36: clock and increment are both below 1.0, so their sum is below 2.0 and the threshold suffices. -/
theorem clockStaysBelowOne : Obligations.ClockStaysBelowOne := by
  intro d r x c hr hrate hclk hlt
  obtain ⟨hn, h0⟩ := clockOk_iff.mp hclk
  rw [fVal_one] at hlt ⊢
  have henc := (lt_one_iff_enc h0).mp hlt
  have hfin : fIsFinite c.clk = true := by
    simp only [fIsFinite, decide_eq_true_eq]; rw [infEnc_val]; omega
  obtain ⟨hsf, hsn, -⟩ := rateStep_spec (quietNaN (d + 4)) hr
  have hs0 : 0 ≤ fVal (fdiv (quietNaN (d + 4)) r.rate 0x47017800#32) := by rw [fVal_of_neg_false hsn]; omega
  have hsum : fEnc (clkNext d r c) ≤ 1073741823 :=
    fEnc_fadd_lt_two _ h0 hs0 hfin hsf henc (rateStep_lt_one _ hr hrate)
  have hok := clockOk_clkNext d hr hclk
  obtain ⟨hn', h0'⟩ := clockOk_iff.mp (clockOk_clkThreshold d hok)
  rw [sampleNext_clk]
  exact ⟨hn', h0', clkThreshold_lt_one d hok hsum⟩

/-! ### The zero-run counter up to the gate (rules R18, R75, R78) -/

/-- The channel whose zero-run counter stops at the gate's threshold. -/
def Channel.cutRun (c : Channel) : Channel := { c with zr := min c.zr 16 }

theorem gateOpen_min (z : Nat) : gateOpen (min z 16) = gateOpen z :=
  decide_eq_decide.mpr (by simp [Config.GATE])

theorem zeroRun_min (comp : Int) (z : Nat) : min (zeroRun comp (min z 16)) 16 = min (zeroRun comp z) 16 := by
  simp only [zeroRun]
  split <;> omega

theorem cutRun_encodeStep (d : Nat) (k : Work) (x : F) (c : Channel) :
    (encodeStep d k x c.cutRun).cutRun = (encodeStep d k x c).cutRun := by
  simp only [Channel.cutRun, encodeStep, zeroRun_min]

/-- Up to the cut, the encode step does not see the cut. -/
theorem cutRun_afterEnc (d : Nat) (r : Reads) (x : F) (c : Channel) :
    (afterEnc d r x c.cutRun).cutRun = (afterEnc d r x c).cutRun := by
  have hclk : clkNext d r c.cutRun = clkNext d r c := rfl
  cases hs : stepped (clkNext d r c) with
  | false =>
    rw [afterEnc_held hs, afterEnc_held (c := c.cutRun) hs, hclk]
    simp [Channel.cutRun]
  | true =>
    rw [afterEnc_stepped hs, afterEnc_stepped (c := c.cutRun) hs, hclk]
    exact cutRun_encodeStep d (derive d r) x { c with clk := clkThreshold d (clkNext d r c) }

theorem cutRun_advance (w ew : Int) (c : Channel) : (advance w ew c).cutRun = advance w ew c.cutRun := by
  cases h : wraps ew c.qi <;> simp [advance, Channel.cutRun, h]

/-- Up to the cut, a whole `SAMPLE` does not see the cut. -/
theorem cutRun_sampleNext (d : Nat) (r : Reads) (x : F) (c : Channel) :
    (sampleNext d r x c.cutRun).cutRun = (sampleNext d r x c).cutRun := by
  cases hs : stepped (clkNext d r c) with
  | false =>
    rw [sampleNext_held hs, sampleNext_held (c := c.cutRun) hs]
    simp [Channel.cutRun, clkNext]
  | true =>
    rw [sampleNext_stepped hs, sampleNext_stepped (c := c.cutRun) hs, cutRun_advance, cutRun_advance,
      cutRun_afterEnc]

/-- The reconstructed level sees the counter through the gate only. -/
theorem recLevel_cutRun (d : Nat) (ds : Int) (c : Channel) :
    recLevel d ds c.cutRun.dout c.cutRun.zr = recLevel d ds c.dout c.zr := by
  simp only [recLevel, Channel.cutRun, gateOpen_min]

theorem sampleLevel_cutRun (d : Nat) (r : Reads) (x : F) (c : Channel) :
    sampleLevel d r x c.cutRun = sampleLevel d r x c := by
  simp only [sampleLevel]
  rw [← recLevel_cutRun, cutRun_afterEnc, recLevel_cutRun]

theorem sampleOut_cutRun (d : Nat) (r : Reads) (x : F) (c : Channel) :
    sampleOut d r x c.cutRun = sampleOut d r x c := by
  simp only [sampleOut, sampleLevel_cutRun]

/-- Settles O46: the gate and the increment agree on a counter and on its cut. -/
theorem zeroRunCounterMaySaturate : Obligations.ZeroRunCounterMaySaturate :=
  fun d r x c => ⟨sampleOut_cutRun d r x c, cutRun_sampleNext d r x c⟩

/-! ### Which NaN an operation delivers (rule R46) -/

theorem SameUpToNaN.symm {a b : F} : SameUpToNaN a b → SameUpToNaN b a := Or.imp Eq.symm And.symm

/-- With legal reads and a bounded channel the encode step does not depend on the draws. -/
theorem afterEnc_draw (d d' : Nat) {r : Reads} (hr : r.Legal) (x : F) {c : Channel} (h : c.Ok) :
    afterEnc d r x c = afterEnc d' r x c := by
  have hclk : clockOk c.clk = true := h.2.2.2.2
  have hrate : legalRate r.rate = true := hr.2.2.2.2
  simp only [afterEnc, encodeStep, clkNext_draw d d' hrate hclk, derive_draw d d' hr, encComp_draw d d',
    clkThreshold_draw d d' (clockOk_clkNext d' hrate hclk)]

/-- With legal reads and a bounded channel the next context does not depend on the draws. -/
theorem sampleNext_draw (d d' : Nat) {r : Reads} (hr : r.Legal) (x : F) {c : Channel} (h : c.Ok) :
    sampleNext d r x c = sampleNext d' r x c := by
  simp only [sampleNext, clkNext_draw d d' hr.2.2.2.2 h.2.2.2.2, derive_draw d d' hr, afterEnc_draw d d' hr x h]

theorem sampleLevel_draw (d d' : Nat) {r : Reads} (hr : r.Legal) (x : F) {c : Channel} (h : c.Ok) :
    sampleLevel d r x c = sampleLevel d' r x c := by
  obtain ⟨hds1, hds2⟩ := derive_ds d hr
  obtain ⟨-, -, hdo1, hdo2, -⟩ := afterEnc_ok d hr x h
  obtain ⟨-, hdraw, -, -⟩ := recLevel_spec hds1 hds2 hdo1 hdo2 d (afterEnc d r x c).zr
  rw [sampleLevel, hdraw d', afterEnc_draw d d' hr x h, derive_draw d d' hr, sampleLevel]

/-- Two outputs of one `SAMPLE` under different draws are equal, or both NaNs. -/
theorem sampleOut_same (d d' : Nat) {r : Reads} (hr : r.Legal) (x : F) {c : Channel} (h : c.Ok) :
    SameUpToNaN (sampleOut d r x c) (sampleOut d' r x c) := by
  have hq := isNaN_quietNaN
  rw [sampleOut_eq, sampleOut_eq, sampleLevel_draw d d' hr x h, deriveGain_draw d d' hr.1]
  refine fdiv_same (hq _) (hq _) (fadd_same (hq _) (hq _) ?_ ?_) (.refl _)
  · exact fmul_same (hq _) (hq _) (.refl _) (.refl _)
  · exact fmul_same (hq _) (hq _) (fmul_same (hq _) (hq _) (.refl _)
      (fsub_same (hq _) (hq _) (.refl _) (.refl _))) (.refl _)

/-! ### Two channels (rules R29, R109) -/

/-- No cell keeps an earlier value. -/
def State.Settled (s : State) : Prop := (∀ i : Fin 4, s.params[i].past = []) ∧ s.srate.past = []

theorem State.settled_sampleState (c : Fin Config.NCH) (x : F) (s : State) : (sampleState c x s).Settled :=
  ⟨fun i => by simpa using (s.params[i]).kept_settle.past_nil, s.srate.kept_settle.past_nil⟩

/-- A `SAMPLE` leaves settled cells as they are. -/
theorem State.Settled.sampleState_cells {s : State} (h : s.Settled) (c : Fin Config.NCH) (x : F) :
    (sampleState c x s).params = s.params ∧ (sampleState c x s).srate = s.srate := by
  obtain ⟨hpast, hrate⟩ := h
  refine ⟨Vector.ext fun i hi => ?_, Cell.settle_of_past_nil hrate⟩
  rw [sampleState_params]
  exact Cell.settle_of_past_nil (hpast ⟨i, hi⟩)

theorem State.Settled.two_samples_cells {s : State} (h : s.Settled) (c c' : Fin Config.NCH) (x x' : F) :
    (sampleState c x (sampleState c' x' s)).params = s.params ∧
      (sampleState c x (sampleState c' x' s)).srate = s.srate := by
  obtain ⟨hp, hr⟩ := h.sampleState_cells c' x'
  obtain ⟨hp', hr'⟩ := (State.settled_sampleState c' x' s).sampleState_cells c x
  exact ⟨hp'.trans hp, hr'.trans hr⟩

/-- A `SAMPLE` of settled cells leaves the reads of the next one as they are. -/
theorem State.Settled.readCells_sampleState {s : State} (h : s.Settled) (c : Fin Config.NCH) (x : F) :
    readCells (sampleState c x s) = readCells s := by
  obtain ⟨hpast', hrate'⟩ := State.settled_sampleState c x s
  obtain ⟨hp, hr⟩ := h.sampleState_cells c x
  rw [readCells_current hpast' hrate', readCells_current h.1 h.2]
  simp only [currentReads, hp, hr]

/-- The word a `SAMPLE` of channel `c` answers. -/
def sampleAnswer (c : Fin Config.NCH) (x : F) (s : State) : F := sampleOut s.draws (readCells s) x s.chans[c]

theorem two_samples_responses (c c' : Fin Config.NCH) (x x' : F) (s : State) :
    (sampleState c x (sampleState c' x' s)).sport.responses
      = s.sport.responses ++ [sampleAnswer c' x' s, sampleAnswer c x (sampleState c' x' s)] :=
  List.append_assoc _ [_] [_]

section TwoSamples

variable {s : State} (h : s.Inv) (hp : s.sport.pending = none)
include h hp

/-- A `SAMPLE` after one of another channel leaves and answers what it does before it, up to which NaN. -/
theorem sample_after_other {c c' : Fin Config.NCH} (hne : c ≠ c') (x x' : F) :
    (sampleState c x (sampleState c' x' s)).chans[c] = (sampleState c x s).chans[c] ∧
      SameUpToNaN (sampleAnswer c x (sampleState c' x' s)) (sampleAnswer c x s) := by
  have hset : s.Settled := h.past_nil hp
  have hr : (readCells s).Legal := readCells_legal h.params h.srate
  simp only [sampleState_chan_self, sampleAnswer, hset.readCells_sampleState, sampleState_chan_other hne]
  exact ⟨sampleNext_draw _ _ hr x (h.chans c), sampleOut_same _ _ hr x (h.chans c)⟩

/-- Two `SAMPLE` operations of different channels leave the same channels in either order. -/
theorem two_samples_chans {c c' : Fin Config.NCH} (hne : c ≠ c') (x x' : F) :
    (sampleState c x (sampleState c' x' s)).chans = (sampleState c' x' (sampleState c x s)).chans := by
  refine Vector.ext fun i hi => ?_
  suffices hch : ∀ j : Fin Config.NCH, (sampleState c x (sampleState c' x' s)).chans[j]
      = (sampleState c' x' (sampleState c x s)).chans[j] from hch ⟨i, hi⟩
  intro j
  by_cases e : j = c
  · subst e
    rw [(sample_after_other h hp hne x x').1, sampleState_chan_other hne]
  by_cases e' : j = c'
  · subst e'
    rw [(sample_after_other h hp e x' x).1, sampleState_chan_other e]
  · simp only [sampleState_chan_other e, sampleState_chan_other e']

end TwoSamples

/-- Settles O50: no cell changes, each channel is changed by its own `SAMPLE`, and the two draw numbers differ
only in the NaNs they deliver. -/
theorem samplesOfTwoChannelsCommute : Obligations.SamplesOfTwoChannelsCommute := by
  intro s ch₁ ch₂ x₁ x₂ h hp h₁ h₂ hne
  obtain ⟨c₁, hc₁⟩ : ∃ c : Fin Config.NCH, ch₁.toNat = c.val := ⟨⟨ch₁.toNat, h₁⟩, rfl⟩
  obtain ⟨c₂, hc₂⟩ : ∃ c : Fin Config.NCH, ch₂.toNat = c.val := ⟨⟨ch₂.toNat, h₂⟩, rfl⟩
  have hc : c₁ ≠ c₂ := fun e => hne (BitVec.eq_of_toNat_eq (by rw [hc₁, hc₂, e]))
  have hset : s.Settled := h.past_nil hp
  obtain ⟨hparams, hrate⟩ := hset.two_samples_cells c₂ c₁ x₂ x₁
  obtain ⟨hparams', hrate'⟩ := hset.two_samples_cells c₁ c₂ x₁ x₂
  obtain ⟨-, hout₁⟩ := sample_after_other h hp hc x₁ x₂
  obtain ⟨-, hout₂⟩ := sample_after_other h hp hc.symm x₂ x₁
  exact ⟨_, _, _, _, sampleAnswer c₁ x₁ s, _, _, sampleAnswer c₂ x₂ s,
    exec_sample hc₁ x₁ s, exec_sample hc₂ x₂ _, exec_sample hc₂ x₂ s, exec_sample hc₁ x₁ _,
    two_samples_chans h hp hc.symm x₂ x₁, hparams.trans hparams'.symm, hrate.trans hrate'.symm,
    two_samples_responses c₂ c₁ x₂ x₁ s, two_samples_responses c₁ c₂ x₁ x₂ s, hout₁.symm, hout₂⟩

end Sys2Proof.Machine
end

section
/-!
PROOFS. Words in bytes, cells and the two ports at once (rules R33 to R41, R58, R85, R86, R91): what the host's issue
leaves, what a served `SETP` or `SETRATE` writes, and which values a `SAMPLE` then reads.
-/

namespace Sys2Proof

/-! ### Words in bytes and as operations (rules R36, R53 to R56) -/

/-- Settles O4: the layout and the decoder are inverse, and byte `k` is a slice of the word. -/
theorem bytesAreLittleEndian : Obligations.BytesAreLittleEndian := by
  refine fun w rest => ⟨decodeBytes_commandBytes w rest, fun k hk => ?_⟩
  rw [commandBytes_get w hk, Option.map_some, BitVec.extractLsb'_toNat, Nat.shiftRight_eq_div_pow]

/-- A well-formed operation is read back from its own word. -/
theorem decode_encode {i : Instr} (h : i.wf = true) : decode (encode i) = .instr i := by
  cases i with
  | sample ch x =>
    have hch : ch.toNat < Config.NCH := of_decide_eq_true h
    simp [decode, encode, hch]
  | setp idx v => simp [decode, encode]
  | getp idx => simp [decode, encode]
  | setrate r => simp [decode, encode]

theorem isSampleWord_of_decode {w : Command} {ch : Sel} {x : F} (h : decode w = .instr (.sample ch x)) :
    isSampleWord w = true := by simp only [isSampleWord, h]

end Sys2Proof

namespace Sys2Proof.Machine

/-! ### One cell and its reads (rules R34, R40) -/

/-- Every value a cell holds is what some choice reads. -/
theorem Cell.exists_readWith {c : Cell} {v : F} (h : v ∈ c.values) : ∃ pick, c.readWith pick = v := by
  obtain ⟨n, hn, rfl⟩ := List.getElem_of_mem h
  refine ⟨n, ?_⟩
  cases hp : c.past with
  | nil =>
    have h0 : n = 0 := by simpa [Cell.values, hp] using hn
    subst h0
    simp [Cell.readWith, Cell.values, hp]
  | cons e es =>
    simp only [Cell.readWith, hp]
    rw [Nat.mod_eq_of_lt hn, List.getD_eq_getElem _ _ hn]

/-- Written while a `SAMPLE` is outstanding, a cell that kept no earlier value holds the new one and the old one. -/
theorem Cell.values_write_busy {c : Cell} (h : c.past = []) (v : F) : (c.write true v).values = [v, c.cur] := by
  simp [Cell.values, Cell.write, Cell.keeps, h]

/-! ### The five reads -/

theorem readCells_param_mem (s : State) (i : Fin 4) : (readCells s).param i ∈ s.params[i].values := by
  rw [readCells_param]; exact Cell.sampleRead_mem _ _ _

theorem readCells_rate_mem (s : State) : (readCells s).rate ∈ s.srate.values := Cell.sampleRead_mem _ _ _

/-- Settles O51: a read is a choice among the values held, and without an earlier value there is no choice. -/
theorem sampleReadsAHeldValue : Obligations.SampleReadsAHeldValue :=
  ⟨readCells_param_mem, readCells_rate_mem, fun _ _ => Cell.exists_readWith,
    fun _ d j h => Cell.sampleRead_of_past_nil h d j⟩

/-- A command that is being executed reads what it would have read while outstanding. -/
theorem readCells_takeCommand (p : Port) (s : State) : readCells (takeCommand p s) = readCells s :=
  readCells_congr (takeCommand_params p s) (takeCommand_srate p s) (takeCommand_draws p s)

theorem currentReads_congr {s t : State} (hp : ∀ i : Fin 4, t.params[i].cur = s.params[i].cur)
    (hr : t.srate.cur = s.srate.cur) : currentReads t = currentReads s := by
  have h0 : t.params[0].cur = s.params[0].cur := hp 0
  have h1 : t.params[1].cur = s.params[1].cur := hp 1
  have h2 : t.params[2].cur = s.params[2].cur := hp 2
  have h3 : t.params[3].cur = s.params[3].cur := hp 3
  simp only [currentReads, h0, h1, h2, h3, hr]

/-- A parameter that keeps no earlier value is read as it stands. -/
theorem readCells_param_of_past_nil {s : State} {i : Fin 4} (h : s.params[i].past = []) :
    (readCells s).param i = s.params[i].cur := by
  rw [readCells_param, Cell.sampleRead_of_past_nil h]

/-- A rate that keeps no earlier value is read as it stands. -/
theorem readCells_rate_of_past_nil {s : State} (h : s.srate.past = []) : (readCells s).rate = s.srate.cur :=
  Cell.sampleRead_of_past_nil h _ _

/-! ### The host's issue (rules R39 to R41, R58) -/

/-- The host's issue leads on only from a free port. -/
theorem issue_next {p : Port} {w : Command} {s t : State} (h : issue p w s = .next t) :
    (portOf p s).pending = none ∧ t = issueCommand p w s := by
  simp only [issue] at h
  split at h
  · cases h; exact ⟨by assumption, rfl⟩
  · cases h

theorem portOf_issueCommand_other {p p' : Port} (h : p' ≠ p) (w : Command) (s : State) :
    portOf p' (issueCommand p w s) = portOf p' s := by
  have hset := portOf_setPort_other h { portOf p s with pending := some w } s
  cases p with
  | control => exact hset
  | sample =>
    simp only [issueCommand]
    split
    · cases p' with
      | sample => exact absurd rfl h
      | control => exact hset
    · exact hset

/-- A `SAMPLE` just issued may read the current values only (`STALE_MAX` = 0). -/
theorem State.settled_issueCommand_sample {w : Command} (h : isSampleWord w = true) (s : State) :
    (issueCommand .sample w s).Settled := by
  simp only [issueCommand, h, if_true]
  exact ⟨fun i => by simpa using Cell.age_past _, Cell.age_past _⟩

/-- The reads of a `SAMPLE` executed right after its issue are the current values. -/
theorem readCells_issueCommand_sample {w : Command} (h : isSampleWord w = true) (s : State) :
    readCells (takeCommand .sample (issueCommand .sample w s)) = currentReads s := by
  obtain ⟨hpast, hrate⟩ := State.settled_issueCommand_sample h s
  obtain ⟨hcur, hcur'⟩ := issueCommand_cur .sample w s
  rw [readCells_takeCommand, readCells_current hpast hrate, currentReads_congr hcur hcur']

/-- Settles O57: the step is `issueCommand`, read off field by field. -/
theorem issueTurnOnlyPlacesTheWord : Obligations.IssueTurnOnlyPlacesTheWord := by
  intro s p w rest hturns hp
  obtain ⟨hcur, hcur'⟩ := issueCommand_cur p w { s with turns := rest }
  refine ⟨issueCommand p w { s with turns := rest }, step_issue hturns hp, ?_, fun p' hne => ?_, by simp, hcur,
    hcur', ?_, ?_, by simp, by simp⟩
  · simp
  · rw [portOf_issueCommand_other hne, portOf_turns]
  · rintro rfl; exact ⟨rfl, rfl⟩
  · rintro ch x rfl hd
    exact State.settled_issueCommand_sample (isSampleWord_of_decode hd) _

/-! ### Parameter and rate writes (rules R34, R35, R85, R86, R91) -/

/-- Settles O17: the state that `exec_setp` names, field by field. -/
theorem setpStoresItsSlot : Obligations.SetpStoresItsSlot := by
  intro s idx v i hi hv
  have hself := congrArg Cell.cur (pWrite_params_self i (storedValue s.draws i v) s)
  exact ⟨_, exec_setp hi hv s, hself, fun j hne => pWrite_params_other hne _ s, rfl, rfl, rfl, rfl, rfl, rfl⟩

/-- A served `SETP` writes its slot's cell and no other cell. -/
theorem serve_setp_cells {s t : State} {idx : Sel} {i : Fin 4} {v : F} (hi : idx.toNat = i.val)
    (hw : s.cport.pending = some (encode (.setp idx v))) (h : serve .control s = .next t) :
    t.params[i] = (s.params[i]).write (sampleBusy s) (if i = 2 then quant s.draws v else v) ∧
      (∀ j : Fin 4, j ≠ i → t.params[j] = s.params[j]) ∧ t.srate = s.srate := by
  rw [serve_instr (p := .control) hw (decode_encode rfl) rfl] at h
  cases hv : inUnit v with
  | false => rw [exec_setp_outside hi hv] at h; cases h
  | true =>
    rw [exec_setp hi hv] at h
    cases h
    exact ⟨pWrite_params_self i _ _, fun j hne => pWrite_params_other hne _ _, rfl⟩

/-- A served `SETRATE` writes the rate cell and no other cell. -/
theorem serve_setrate_cells {s t : State} {r : F} (hw : s.cport.pending = some (encode (.setrate r)))
    (h : serve .control s = .next t) : t.srate = s.srate.write (sampleBusy s) r ∧ t.params = s.params := by
  rw [serve_instr (p := .control) hw (decode_encode rfl) rfl] at h
  cases hr : legalRate r with
  | false => rw [exec_setrate_outside hr] at h; cases h
  | true =>
    rw [exec_setrate hr] at h
    cases h
    exact ⟨rfl, rfl⟩

/-! ### A `SAMPLE` after and across a write (rules R39 (b), R40, R123) -/

/-- Settles O52: the `SAMPLE` issued reads the current values, of which the write has replaced one. -/
theorem completedWriteIsSeen : Obligations.CompletedWriteIsSeen := by
  intro s t u ch x _ _ hch hserve hissue
  obtain ⟨-, rfl⟩ := issue_next hissue
  have hword : isSampleWord (encode (.sample ch x)) = true :=
    isSampleWord_of_decode (decode_encode (decide_eq_true hch))
  have hreads := readCells_issueCommand_sample hword t
  refine ⟨fun idx i v hi hw => ?_, fun r hw => ?_⟩
  · obtain ⟨hslot, hothers, hrate⟩ := serve_setp_cells hi hw hserve
    refine ⟨hreads, ?_, fun j hne => ?_, congrArg Cell.cur hrate⟩
    · rw [currentReads_param, hslot, Cell.write_cur]
    · rw [currentReads_param, currentReads_param, hothers j hne]
  · obtain ⟨hrate, hparams⟩ := serve_setrate_cells hw hserve
    refine ⟨hreads, congrArg Cell.cur hrate, fun j => ?_⟩
    rw [currentReads_param, currentReads_param, hparams]

/-- Settles O53: the cell written while a `SAMPLE` is outstanding holds two values, every other cell one. -/
theorem overlappingWriteIsSeenOrNot : Obligations.OverlappingWriteIsSeenOrNot := by
  intro s t w hbusy hpast hpast' hserve reads
  have hb : sampleBusy s = true := by simp [sampleBusy, hbusy]
  have hreads : reads = readCells t := readCells_takeCommand .sample t
  rw [hreads]
  have hkept : ∀ j : Fin 4, t.params[j] = s.params[j] → (readCells t).param j = (currentReads s).param j := by
    intro j hj
    rw [readCells_param_of_past_nil (hj ▸ hpast j), currentReads_param, hj]
  refine ⟨fun idx i v hi hw => ?_, fun r hw => ?_⟩
  · obtain ⟨hslot, hothers, hrate⟩ := serve_setp_cells hi hw hserve
    rw [hb] at hslot
    have hvals : t.params[i].values = [if i = 2 then quant s.draws v else v, (currentReads s).param i] := by
      rw [hslot, Cell.values_write_busy (hpast i), currentReads_param]
    have hread : (readCells t).param i ∈ t.params[i].values := readCells_param_mem t i
    rw [hvals, List.mem_pair] at hread
    refine ⟨hread.symm, hvals, fun j hne => hkept j (hothers j hne), ?_⟩
    exact (readCells_rate_of_past_nil (hrate ▸ hpast')).trans (congrArg Cell.cur hrate)
  · obtain ⟨hrate, hparams⟩ := serve_setrate_cells hw hserve
    rw [hb] at hrate
    have hvals : t.srate.values = [r, (currentReads s).rate] := by
      rw [hrate, Cell.values_write_busy hpast']; rfl
    have hread : (readCells t).rate ∈ t.srate.values := readCells_rate_mem t
    rw [hvals, List.mem_pair] at hread
    exact ⟨hread.symm, hvals, fun j => hkept j (by rw [hparams])⟩

end Sys2Proof.Machine
end

section
/-!
PROOFS. Command words and what is done with them (rules R50 to R63, R127): the decoder and the encoder are inverse,
a reserved word is answered with zero, and a served command is answered once.
-/

namespace Sys2Proof

/-! ### The decoder and the encoder (rules R53 to R57, R59, R62) -/

/-- A `SAMPLE` of a channel that does not exist encodes to a word reserved for its channel. -/
theorem decode_encode_missing {i : Instr} (h : i.wf = false) : decode (encode i) = .reserved .channel := by
  cases i with
  | sample ch x =>
    have hch : ¬ ch.toNat < Config.NCH := of_decide_eq_false h
    simp [decode, encode, hch]
  | setp idx v => cases h
  | getp idx => cases h
  | setrate r => cases h

/-- Settles O2: every operation's word has the three fields the decoder reads. -/
theorem decodeInvertsEncode : Obligations.DecodeInvertsEncode :=
  ⟨fun _ => decode_encode, fun _ => decode_encode_missing⟩

/-- Only well-formed operations are decoded. -/
theorem wf_of_decode {w : Command} {i : Instr} (h : decode w = .instr i) : i.wf = true := by
  rcases decode_fields h with ⟨ch, x, rfl, -, -, -, hch⟩ | ⟨idx, v, rfl, -⟩ | ⟨idx, rfl, -⟩ | ⟨r, rfl, -⟩
  · exact decide_eq_true hch
  all_goals rfl

/-- A word is the encoding of what it decodes to. -/
theorem encode_of_decode {w : Command} {i : Instr} (h : decode w = .instr i) : encode i = w := by
  rw [← fields_append w]
  rcases decode_fields h with ⟨ch, x, rfl, hop, rfl, rfl, -⟩ | ⟨idx, v, rfl, hop, rfl, rfl⟩ |
    ⟨idx, rfl, hop, rfl, hdata⟩ | ⟨r, rfl, hop, hsel, rfl⟩
  · rw [hop]; rfl
  · rw [hop]; rfl
  · rw [hop, hdata]; rfl
  · rw [hop, hsel]; rfl

/-- Settles O3: the fields the decoder checks and the operands it reads are all of the word. -/
theorem encodeInvertsDecode : Obligations.EncodeInvertsDecode :=
  fun _ _ h => ⟨wf_of_decode h, encode_of_decode h⟩

/-- Settles O1: twelve words, on each of which the decoder is evaluated. -/
theorem decodesWordsOfTheSpec : Obligations.DecodesWordsOfTheSpec := by
  unfold Obligations.DecodesWordsOfTheSpec
  decide

end Sys2Proof

namespace Sys2Proof.Machine

/-! ### Reserved words (rules R53, R57, R58) -/

/-- What a port accepts is what the word decodes to, and belongs to the port. -/
theorem acceptedOn_eq_some {p : Port} {w : Command} {i : Instr} (h : acceptedOn p w = some i) :
    decode w = .instr i ∧ i.port = p := by
  simp only [acceptedOn] at h
  split at h
  · split at h
    · cases h; exact ⟨by assumption, by assumption⟩
    · cases h
  · cases h

/-- The words rule R57 calls reserved on a port, the other port's opcodes included, read from the bits. -/
def ReservedOn (p : Port) (w : Command) : Prop :=
  let op := w.toNat / 2 ^ 40
  let sel := w.toNat / 2 ^ 32 % 256
  let data := w.toNat % 2 ^ 32
  op = 0 ∨ 5 ≤ op ∨ (op = 1 ∧ 2 ≤ sel) ∨ (op = 3 ∧ data ≠ 0) ∨ (op = 4 ∧ sel ≠ 0) ∨
    (op = 1 ∧ p = .control) ∨ (2 ≤ op ∧ op ≤ 4 ∧ p = .sample)

/-- A port accepts no reserved word. -/
theorem acceptedOn_of_reserved {p : Port} {w : Command} (h : ReservedOn p w) : acceptedOn p w = none := by
  rw [Option.eq_none_iff_forall_ne_some]
  intro i hi
  obtain ⟨hd, rfl⟩ := acceptedOn_eq_some hi
  simp only [ReservedOn, ← opOf_toNat, ← selOf_toNat, ← dataOf_toNat] at h
  rcases decode_fields hd with ⟨ch, x, rfl, hop, hsel, -, hch⟩ | ⟨idx, v, rfl, hop, -⟩ |
    ⟨idx, rfl, hop, -, hdata⟩ | ⟨r, rfl, hop, hsel, -⟩
  · have hch' : (selOf w).toNat < 2 := hsel ▸ hch
    simp [hop, Instr.port] at h; omega
  · simp [hop, Instr.port] at h
  · simp [hop, hdata, Instr.port] at h
  · simp [hop, hsel, Instr.port] at h

/-- The answer to a reserved word changes no element of state of the block. -/
theorem answerReserved_frame (p : Port) (s : State) :
    (∀ p', p' ≠ p → portOf p' (answerReserved p s) = portOf p' s) ∧ (answerReserved p s).chans = s.chans ∧
      (∀ i : Fin 4, (answerReserved p s).params[i].cur = s.params[i].cur) ∧
      (answerReserved p s).srate.cur = s.srate.cur ∧ (answerReserved p s).turns = s.turns ∧
      (answerReserved p s).draws = s.draws := by
  obtain ⟨hparams, hrate⟩ := respond_cur p noValue s
  exact ⟨fun p' hne => portOf_respond_other hne _ s, respond_chans p _ s, fun i => hparams i i.isLt, hrate,
    respond_turns p _ s, respond_draws p _ s⟩

/-- Settles O5: a port accepts no reserved word, and the answer is a response alone. -/
theorem reservedCommandIsAnsweredWithZero : Obligations.ReservedCommandIsAnsweredWithZero := by
  intro s p w hw hres
  obtain ⟨hother, hchans, hparams, hrate, hturns, hdraws⟩ := answerReserved_frame p (takeCommand p s)
  simp only [takeCommand_chans, takeCommand_params, takeCommand_srate, takeCommand_turns,
    takeCommand_draws] at hchans hparams hrate hturns hdraws
  refine ⟨_, serve_reserved hw (acceptedOn_of_reserved hres), ?_, fun p' hne => ?_, hchans, hparams, hrate,
    hturns, hdraws⟩
  · simp [answerReserved]
  · rw [hother p' hne, portOf_takeCommand_other hne]

/-- Settles O27: the operation of a missing channel is the answer to a reserved word. -/
theorem sampleOfMissingChannelIsReserved : Obligations.SampleOfMissingChannelIsReserved := by
  intro s ch x hch
  obtain ⟨hother, hchans, hparams, hrate, hturns, hdraws⟩ := answerReserved_frame .sample s
  exact ⟨_, exec_sample_missing hch x s, rfl, hchans, hparams, hrate, hother .control (by decide), hturns, hdraws⟩

/-! ### One answer for each command (rules R51, R58, R127) -/

/-- `t` is `s` with one more response on port `p`, as far as the ports and the schedule go. -/
def AnswersOn (p : Port) (s t : State) : Prop :=
  (∃ v, portOf p t = { portOf p s with responses := (portOf p s).responses ++ [v] }) ∧
    (∀ p', p' ≠ p → portOf p' t = portOf p' s) ∧ t.turns = s.turns

theorem answersOn_respond (p : Port) (v : Response) (s : State) : AnswersOn p s (respond p v s) :=
  ⟨⟨v, portOf_respond p v s⟩, fun _ hne => portOf_respond_other hne v s, respond_turns p v s⟩

/-- An answer given after a change that touches no port and no turn. -/
theorem AnswersOn.of_eq {p : Port} {s u t : State} (h : AnswersOn p u t) (hp : ∀ p', portOf p' u = portOf p' s)
    (ht : u.turns = s.turns) : AnswersOn p s t := by
  obtain ⟨⟨v, hv⟩, hother, hturns⟩ := h
  exact ⟨⟨v, by rw [hv, hp]⟩, fun p' hne => (hother p' hne).trans (hp p'), hturns.trans ht⟩

/-- Every operation that completes answers once, on its own port. -/
theorem exec_answersOn {i : Instr} {s t : State} (h : exec i s = .next t) : AnswersOn i.port s t := by
  rcases exec_cases h with ⟨ch, x, rfl, c, -, rfl⟩ | ⟨ch, x, rfl, -, rfl⟩ | ⟨idx, v, rfl, j, -, -, rfl⟩ |
    ⟨idx, v, rfl, -, rfl⟩ | ⟨idx, v, rfl, rfl⟩ | ⟨r, rfl, -, rfl⟩
  · exact (answersOn_respond .sample _ _).of_eq (fun p' => by cases p' <;> rfl) rfl
  · exact answersOn_respond .sample _ _
  · exact (answersOn_respond .control _ _).of_eq (fun p' => by cases p' <;> rfl) rfl
  · exact answersOn_respond .control _ _
  · exact answersOn_respond .control _ _
  · exact (answersOn_respond .control _ _).of_eq (fun p' => by cases p' <;> rfl) rfl

/-- A port served with a command outstanding answers it once and is free again. -/
theorem serve_answersOn {p : Port} {s t : State} {w : Command} (hw : (portOf p s).pending = some w)
    (h : serve p s = .next t) : AnswersOn p (takeCommand p s) t := by
  rcases serve_cases h with ⟨hnone, -⟩ | ⟨_, i, -, -, rfl, he⟩ | ⟨_, -, rfl⟩
  · rw [hw] at hnone; cases hnone
  · exact exec_answersOn he
  · exact answersOn_respond p noValue _

/-- Settles O9: an operation answers once on its own port, and so does a reserved word. -/
theorem servedCommandAnswersOnce : Obligations.ServedCommandAnswersOnce := by
  intro s t p w hw h
  obtain ⟨⟨v, hv⟩, hother, hturns⟩ := serve_answersOn hw h
  refine ⟨⟨v, by rw [hv, portOf_takeCommand]⟩, fun p' hne => ?_, by rw [hturns, takeCommand_turns]⟩
  rw [hother p' hne, portOf_takeCommand_other hne]

/-- No step faults (rule R97), so what is not refused leads on. -/
theorem exists_next_of_not_refused {o : Host.Outcome State Fault Refusal} (h : ¬ ∃ r, o = .refused r) :
    ∃ t, o = .next t := by
  cases o with
  | next t => exact ⟨t, rfl⟩
  | fault f => cases f
  | refused r => exact absurd ⟨r, rfl⟩ h

/-- Serving a port that does not refuse its command leads on and answers the command. -/
theorem exists_serve_answer {p : Port} {s : State} {w : Command} (hw : (portOf p s).pending = some w)
    (h : ¬ ∃ r, serve p s = .refused r) : ∃ t v, serve p s = .next t ∧
      portOf p t = { pending := none, responses := (portOf p s).responses ++ [v] } := by
  obtain ⟨t, ht⟩ := exists_next_of_not_refused h
  obtain ⟨⟨v, hv⟩, -⟩ := servedCommandAnswersOnce s t p w hw ht
  exact ⟨t, v, ht, hv⟩

/-- Settles O10: the step serves the one port that holds a command, and neither port refuses it. -/
theorem outstandingCommandIsAnswered : Obligations.OutstandingCommandIsAnswered := by
  refine fun s w hturns => ⟨fun hfree hw => ?_, fun hfree hw hdom => ?_⟩
  · have hstep : step s = serve .sample s := by simp [step, hturns, unscheduled, hfree]
    rw [hstep]
    exact exists_serve_answer hw (serve_sample_not_refused s)
  · have hstep : step s = serve .control s := by simp [step, hturns, unscheduled, hfree, hw]
    rw [hstep]
    refine exists_serve_answer hw fun hr => ?_
    obtain ⟨w', i, hw', hd, hout⟩ := (serve_control_refused_iff s).mp hr
    rw [hw, Option.some_inj] at hw'
    subst hw'
    rw [hdom i hd] at hout
    cases hout

/-! ### The step and the operation it runs (rules R52, R58, R60, R63) -/

/-- Settles O6: the turn serves the port, and the port runs its operation. -/
theorem stepRunsTheDecodedInstr : Obligations.StepRunsTheDecodedInstr := by
  intro s p rest w i hturns hw hd hp
  rw [step_serve hturns]
  exact serve_instr (by rw [portOf_turns]; exact hw) hd hp

theorem wordPort_of_decode {w : Command} {i : Instr} (h : decode w = .instr i) : wordPort w = i.port := by
  simp only [wordPort, h]

/-- An issue leaves the schedule as it is. -/
theorem issueCommand_restore_turns (p : Port) (w : Command) (s : State) :
    { issueCommand p w s with turns := s.turns } = issueCommand p w s := by
  conv_lhs => rw [← issueCommand_turns p w s]

/-- Settles O7: the placed word is outstanding on its port, whose turn stands first. -/
theorem fetchWordRunsNext : Obligations.FetchWordRunsNext := by
  intro s w i h
  have hd := decode_wordOf h
  have hplaced : s.withFetchWord 48 w
      = { issueCommand i.port (wordOf 48 w) s with turns := .serve i.port :: s.turns } := by
    simp only [State.withFetchWord, placeCommand, wordPort_of_decode hd]
  have hpend : (portOf i.port (issueCommand i.port (wordOf 48 w) s)).pending = some (wordOf 48 w) := by
    rw [portOf_issueCommand]
  rw [hplaced, step_serve (rest := s.turns) rfl]
  exact (congrArg (serve i.port) (issueCommand_restore_turns i.port (wordOf 48 w) s)).trans
    (serve_instr hpend hd rfl)

end Sys2Proof.Machine
end

section
/-!
PROOFS. The arithmetic (rules R45 to R47): each operation's result is the nearest to the exact one, the special
results, and the conversions.
-/

namespace Sys2Proof.Machine

/-! ### Nearest results (rule R46) -/

/-- `y` is the value nearest to the exact result `num / den` units, with the sign `neg`: no finite value is nearer,
a tie has the even fraction, and it is infinite from the middle between the largest finite value and 2^128 on. -/
def IsNearest (neg : Bool) (num den : Int) (y : F) : Prop :=
  fIsNaN y = false ∧ fNeg y = neg ∧
  (fIsFinite y = true → ∀ z : F, fIsFinite z = true →
    |num - fVal y * den| ≤ |num - fVal z * den| ∧
    (|num - fVal y * den| = |num - fVal z * den| → fVal y = fVal z ∨ y.toNat % 2 = 0)) ∧
  (fIsInf y = true ↔ (fVal 0x7F7FFFFF#32 + fVal 0x7F800000#32) * |den| ≤ 2 * |num|)

/-- The integer with the given sign and magnitude. -/
def signed (neg : Bool) (n : Nat) : Int := if neg then -(n : Int) else n

theorem fVal_eq_signed (a : F) : fVal a = signed (fNeg a) (fMag a) := rfl

theorem abs_signed (neg : Bool) (n : Nat) : |signed neg n| = n := by
  cases neg <;> simp [signed]

theorem abs_fVal (a : F) : |fVal a| = (fMag a : Int) := abs_signed _ _

theorem signed_mul_natCast (neg : Bool) (n m : Nat) : signed neg n * (m : Int) = signed neg (n * m) := by
  cases neg <;> simp [signed]

theorem signed_mul_signed (s t : Bool) (n m : Nat) : signed s n * signed t m = signed (xor s t) (n * m) := by
  cases s <;> cases t <;> simp [signed]

theorem neg_signed (s : Bool) (n : Nat) : -signed s n = signed (!s) n := by
  cases s <;> simp [signed]

theorem signed_zero (s : Bool) : signed s 0 = 0 := by cases s <;> simp [signed]

theorem signed_nonneg_iff {s : Bool} {n : Nat} : 0 ≤ signed s n ↔ s = false ∨ n = 0 := by
  cases s <;> simp [signed]

theorem signed_nonpos_iff {s : Bool} {n : Nat} : signed s n ≤ 0 ↔ s = true ∨ n = 0 := by
  cases s <;> simp [signed]

/-- An integer is its sign and its magnitude. -/
theorem signed_natAbs (z : Int) : signed (decide (z < 0)) z.natAbs = z := by
  simp only [signed, decide_eq_true_eq]
  split <;> omega

/-- Between magnitudes of one sign the distance is that of the magnitudes. -/
theorem abs_signed_sub_same (s : Bool) (n m : Nat) : |signed s n - signed s m| = |(n : Int) - m| := by
  cases s with
  | false => rfl
  | true => rw [← abs_neg]; congr 1; simp only [signed, if_true]; ring

/-- Between magnitudes of opposite signs the distance is their sum. -/
theorem abs_signed_sub_not (s : Bool) (n m : Nat) : |signed s n - signed (!s) m| = (n : Int) + m := by
  cases s with
  | false => simp only [signed, Bool.not_false, if_true, Bool.false_eq_true, if_false]; rw [abs_of_nonneg] <;> omega
  | true => simp only [signed, Bool.not_true, if_true, Bool.false_eq_true, if_false]; rw [abs_of_nonpos] <;> omega

/-- Only from zero is a positive number as far as its opposite. -/
theorem eq_zero_of_abs_sub_eq_add {n m : Nat} (hm : 0 < m) (h : |(n : Int) - m| = n + m) : n = 0 := by
  rcases abs_cases ((n : Int) - m) with ⟨hc, -⟩ | ⟨hc, -⟩ <;> omega

theorem encMag_fEnc (a : F) : encMag (fEnc a) = fMag a := rfl

/-- The last bit of a pattern is that of its encoding. -/
theorem toNat_mod_two (a : F) : a.toNat % 2 = fEnc a % 2 := by
  rw [fEnc, signBit_val]; omega

theorem overflow_middle : fVal 0x7F7FFFFF#32 + fVal 0x7F800000#32
    = ((encMag (infEnc - 1) + encMag infEnc : Nat) : Int) := by decide

section Rounding

variable {num den : Nat} (hd : 0 < den) (hfin : roundEnc num den < infEnc) (neg : Bool)
include hd hfin

/-- No value of either sign is nearer to the exact result than the rounded magnitude with the result's sign. -/
theorem roundEnc_nearest_signed (z : F) :
    |signed neg num - signed neg (encMag (roundEnc num den)) * den| ≤ |signed neg num - fVal z * den| ∧
    (|signed neg num - signed neg (encMag (roundEnc num den)) * den| = |signed neg num - fVal z * den| →
      signed neg (encMag (roundEnc num den)) = fVal z ∨ roundEnc num den % 2 = 0) := by
  obtain ⟨hle, htie⟩ := roundEnc_nearest hd hfin (fEnc z)
  rw [fVal_eq_signed, signed_mul_natCast, signed_mul_natCast, abs_signed_sub_same]
  simp only [encMag_fEnc, ← Nat.cast_mul] at hle htie
  by_cases hs : fNeg z = neg
  · rw [hs, abs_signed_sub_same]
    exact ⟨hle, fun h => (htie h).imp_left fun he => by rw [he]⟩
  · have hs' : fNeg z = !neg := Bool.eq_not_of_ne hs
    have hsum : |(num : Int) - (fMag z * den : Nat)| ≤ num + (fMag z * den : Nat) := by
      rw [abs_le]; omega
    rw [hs', abs_signed_sub_not]
    refine ⟨hle.trans hsum, fun h => ?_⟩
    rcases htie (le_antisymm hle (hsum.trans h.ge)) with he | he
    · rw [← he] at h ⊢
      rcases Nat.eq_zero_or_pos (encMag (roundEnc num den)) with h0 | h0
      · left; rw [h0, signed_zero, signed_zero]
      · right
        rw [eq_zero_of_abs_sub_eq_add (Nat.mul_pos h0 hd) h, roundEnc_zero hd]
    · exact .inr he

end Rounding

/-- A rounded exact result is the nearest one. -/
theorem isNearest_roundPack {num den : Nat} (hd : 0 < den) (neg : Bool) :
    IsNearest neg (signed neg num) den (roundPack neg num den) := by
  refine ⟨fIsNaN_roundPack .., fNeg_roundPack .., fun hf z _ => ?_, ?_⟩
  · have hfin : roundEnc num den < infEnc := by simpa [fIsFinite] using hf
    rw [toNat_mod_two, fEnc_roundPack]
    exact (fVal_roundPack neg num den).symm ▸ roundEnc_nearest_signed hd hfin neg z
  · rw [overflow_middle, abs_signed, Nat.abs_cast]
    simp only [fIsInf, fEnc_roundPack, decide_eq_true_eq, roundEnc_inf_iff hd]
    norm_cast

/-- The sign may stand in the numerator or in the denominator. -/
theorem isNearest_neg_neg {neg : Bool} {num den : Int} {y : F} (h : IsNearest neg (-num) (-den) y) :
    IsNearest neg num den y := by
  have hdist : ∀ v : Int, |-num - v * -den| = |num - v * den| := fun v => by
    rw [← abs_neg]; congr 1; ring
  simpa only [IsNearest, hdist, abs_neg] using h

/-- An exact zero is a zero of either sign. -/
theorem isNearest_zero (neg : Bool) : IsNearest neg 0 1 (fPack neg 0) := by
  have h := isNearest_roundPack (num := 0) (den := 1) (by omega) neg
  rwa [signed_zero, roundPack, roundEnc_zero (by omega), Nat.cast_one] at h

section Operations

variable (q : F) {a b : F} (ha : fIsFinite a = true) (hb : fIsFinite b = true)
include ha hb

theorem isNearest_fadd : IsNearest
    (if fVal a + fVal b = 0 then fNeg a && fNeg b else decide (fVal a + fVal b < 0))
    (fVal a + fVal b) 1 (fadd q a b) := by
  by_cases h0 : fVal a + fVal b = 0
  · rw [fadd_finite_zero q ha hb h0, if_pos h0, h0]
    exact isNearest_zero _
  · rw [fadd_finite q ha hb h0, if_neg h0]
    have h := isNearest_roundPack (num := (fVal a + fVal b).natAbs) (den := 1) (by omega)
      (decide (fVal a + fVal b < 0))
    rwa [signed_natAbs] at h

theorem isNearest_fsub : IsNearest
    (if fVal a - fVal b = 0 then fNeg a && !fNeg b else decide (fVal a < fVal b))
    (fVal a - fVal b) 1 (fsub q a b) := by
  have h := isNearest_fadd q ha (finite_flip.trans hb)
  rw [fVal_flip, fNeg_flip, ← Int.sub_eq_add_neg] at h
  simpa only [fsub_finite q ha hb, sub_neg] using h

theorem isNearest_fmul : IsNearest (xor (fNeg a) (fNeg b)) (fVal a * fVal b) (fVal 0x3F800000#32)
    (fmul q a b) := by
  rw [fmul_finite q ha hb, fVal_one, fVal_eq_signed a, fVal_eq_signed b, signed_mul_signed]
  exact isNearest_roundPack unit_pos _

theorem isNearest_fdiv (h0 : fVal b ≠ 0) : IsNearest (xor (fNeg a) (fNeg b))
    (fVal a * fVal 0x3F800000#32) (fVal b) (fdiv q a b) := by
  have hmag : fMag b ≠ 0 := fun h => h0 ((fMag_eq_zero_iff b).mp h)
  have h := isNearest_roundPack (num := fMag a * unit) (Nat.pos_of_ne_zero hmag) (xor (fNeg a) (fNeg b))
  rw [fdiv_finite q ha hb hmag, fVal_one, fVal_eq_signed a, fVal_eq_signed b, signed_mul_natCast]
  cases hn : fNeg b with
  | false =>
    rw [hn, Bool.xor_false] at h
    rwa [Bool.xor_false]
  | true =>
    rw [hn, Bool.xor_true] at h
    refine isNearest_neg_neg ?_
    rw [neg_signed, neg_signed, Bool.xor_true]
    exact h

end Operations

/-- Settles O54: each operation rounds its exact result once, and rounding takes the nearest value. -/
theorem arithmeticRoundsToNearest : Obligations.ArithmeticRoundsToNearest := by
  intro q a b ha hb
  exact ⟨isNearest_fadd q ha hb, isNearest_fsub q ha hb, isNearest_fmul q ha hb, isNearest_fdiv q ha hb⟩

/-! ### Zeros, infinities and NaNs (rules R45, R46) -/

theorem fPack_inf (neg : Bool) : fPack neg infEnc = if neg then 0xFF800000#32 else 0x7F800000#32 := by
  cases neg <;> decide

theorem fPack_zero (neg : Bool) : fPack neg 0 = if neg then 0x80000000#32 else 0x00000000#32 := by
  cases neg <;> decide

theorem isInf_flip {a : F} (h : fIsInf a = true) : fIsInf (fFlip a) = true := by
  simpa only [fIsInf, fEnc_flip] using h

theorem fmul_comm (q a b : F) : fmul q a b = fmul q b a := by
  simp only [fmul, Bool.xor_comm (fNeg a), Bool.or_comm (fIsNaN a), Bool.or_comm (fIsInf a),
    or_comm (a := fMag a = 0), Nat.mul_comm (fMag a)]

theorem fsub_eq_fadd_flip (q : F) {a b : F} (ha : fIsNaN a = false) (hb : fIsNaN b = false) :
    fsub q a b = fadd q a (fFlip b) := by simp [fsub, ha, hb]

/-- Infinities of one sign are one pattern. -/
theorem isInf_ext {a b : F} (ha : fIsInf a = true) (hb : fIsInf b = true) (h : fNeg a = fNeg b) : a = b := by
  rw [isInf_eq ha, isInf_eq hb, h]

section Infinities

variable (q : F) {a b : F} (ha : fIsInf a = true)
include ha

/-- The sum of infinities of opposite signs is a NaN. -/
theorem fadd_inf_opposite (hb : fIsInf b = true) (h : fNeg a ≠ fNeg b) : fadd q a b = q := by
  simp [fadd, not_isNaN_of_isInf ha, not_isNaN_of_isInf hb, ha, hb, h]

theorem fdiv_inf_inf (hb : fIsInf b = true) : fdiv q a b = q := by
  simp [fdiv, not_isNaN_of_isInf ha, not_isNaN_of_isInf hb, ha, hb]

/-- An infinity plus a value that does not cancel it, in either order. -/
theorem fadd_inf_keeps (hb : fIsFinite b = true ∨ (fIsInf b = true ∧ fNeg a = fNeg b)) :
    fadd q a b = a ∧ fadd q b a = a := by
  rcases hb with hb | ⟨hb, hs⟩
  · exact fadd_inf q ha hb
  · obtain rfl := isInf_ext ha hb hs
    exact ⟨fadd_inf_inf q ha ha rfl, fadd_inf_inf q ha ha rfl⟩

/-- An infinity less a finite value, and a finite value less an infinity. -/
theorem fsub_inf_finite (hb : fIsFinite b = true) : fsub q a b = a ∧ fsub q b a = fFlip a := by
  have hna := not_isNaN_of_isInf ha
  have hnb := not_isNaN_of_finite hb
  rw [fsub_eq_fadd_flip q hna hnb, fsub_eq_fadd_flip q hnb hna]
  exact ⟨(fadd_inf q ha (finite_flip.trans hb)).1, (fadd_inf q (isInf_flip ha) hb).2⟩

/-- An infinity less one of the other sign. -/
theorem fsub_inf_inf (hb : fIsInf b = true) (h : fNeg a ≠ fNeg b) : fsub q a b = a := by
  rw [fsub_eq_fadd_flip q (not_isNaN_of_isInf ha) (not_isNaN_of_isInf hb)]
  exact fadd_inf_inf q ha (isInf_flip hb) (by rw [fNeg_flip]; exact Bool.eq_not_of_ne h)

/-- An infinity less itself is a NaN. -/
theorem fsub_inf_self : fsub q a a = q := by
  rw [fsub_eq_fadd_flip q (not_isNaN_of_isInf ha) (not_isNaN_of_isInf ha)]
  exact fadd_inf_opposite q ha (isInf_flip ha) (by rw [fNeg_flip]; simp)

end Infinities

/-- Every operation on a NaN delivers the NaN drawn, and no NaN is less than a value or above one. -/
theorem operations_of_isNaN (q : F) {a b : F} (h : fIsNaN a = true ∨ fIsNaN b = true) :
    fadd q a b = q ∧ fsub q a b = q ∧ fmul q a b = q ∧ fdiv q a b = q ∧ flt a b = false := by
  have hor : (fIsNaN a || fIsNaN b) = true := by simpa using h
  have hlt : flt a b = false := by
    rcases h with h | h <;> simp [flt, h]
  refine ⟨?_, ?_, ?_, ?_, hlt⟩
  · simp only [fadd, hor, if_true]
  · simp only [fsub, hor, if_true]
  · simp only [fmul, hor, if_true]
  · simp only [fdiv, hor, if_true]

theorem flt_iff {a b : F} (ha : fIsNaN a = false) (hb : fIsNaN b = false) :
    flt a b = true ↔ fVal a < fVal b := by simp [flt, ha, hb]

/-- Settles O55: each result is the branch of the operation's definition that the classes of the operands pick. -/
theorem specialResults : Obligations.SpecialResults := by
  simp only [Obligations.SpecialResults, ← fPack_inf, ← fPack_zero]
  exact ⟨fun k => ⟨isNaN_quietNaN k, isQuietNaN_quietNaN k⟩,
    fun q _ _ ha h0 hb => fdiv_zero q ha h0 hb,
    fun q _ _ ha hb => ⟨fdiv_inf q ha hb, fdiv_by_inf q hb ha⟩,
    fun q a b ha hb h0 => ⟨fmul_inf q ha hb h0, by
      rw [fmul_comm, Bool.xor_comm]; exact fmul_inf q ha hb h0⟩,
    fun q _ _ ha hb => fadd_inf_keeps q ha hb,
    fun q _ _ ha hb => fsub_inf_finite q ha hb,
    fun q _ _ ha hb h => fsub_inf_inf q ha hb h,
    fun q _ _ ha hb => fdiv_zero_zero q ha hb,
    fun q _ _ ha hb => fdiv_inf_inf q ha hb,
    fun q a b ha hb => ⟨fmul_inf_zero q ha hb, fmul_comm q b a ▸ fmul_inf_zero q ha hb⟩,
    fun q _ _ ha hb h => fadd_inf_opposite q ha hb h,
    fun q _ ha => fsub_inf_self q ha,
    fun q _ _ h => operations_of_isNaN q h,
    fun _ _ ha hb => flt_iff ha hb,
    by decide⟩

/-! ### Conversions (rule R47) -/

/-- `f2i_trunc` is the truncated magnitude with the value's sign, saturated. -/
theorem f2iTrunc_eq {a : F} (h : fIsNaN a = false) :
    f2iTrunc a = clampInt (signed (fNeg a) (fMag a / unit)) (-2147483648) 2147483647 := by
  simp only [f2iTrunc, h, Bool.false_eq_true, if_false, signed]

theorem clampInt_of_mem {v lo hi : Int} (h₁ : lo ≤ v) (h₂ : v ≤ hi) : clampInt v lo hi = v := by
  simp only [clampInt]; split
  · omega
  · split <;> omega

theorem clampInt_of_le {v lo hi : Int} (h : lo ≤ hi) (hv : v ≤ lo) : clampInt v lo hi = lo := by
  simp only [clampInt]; split
  · rfl
  · rw [if_neg (by omega)]; omega

theorem clampInt_of_ge {v lo hi : Int} (h : lo ≤ hi) (hv : hi ≤ v) : clampInt v lo hi = hi := by
  simp only [clampInt]; rw [if_neg (by omega)]; split
  · rfl
  · omega

/-- Below 2^31 in magnitude `f2i_trunc` does not saturate. -/
theorem f2iTrunc_of_lt {a : F} (h : fIsNaN a = false) (hlt : fMag a < 2147483648 * unit) :
    f2iTrunc a = signed (fNeg a) (fMag a / unit) := by
  have hq : fMag a / unit < 2147483648 := Nat.div_lt_of_lt_mul (by rwa [Nat.mul_comm])
  rw [f2iTrunc_eq h]
  generalize fMag a / unit = n at *
  obtain ⟨hlo, hhi⟩ := abs_le.mp (abs_signed (fNeg a) n).le
  exact clampInt_of_mem (by omega) (by omega)

/-- From 2^31 in magnitude on `f2i_trunc` gives the bound on the value's side. -/
theorem f2iTrunc_of_ge {a : F} (h : fIsNaN a = false) (hge : 2147483648 * unit ≤ fMag a) :
    f2iTrunc a = if fNeg a then -2147483648 else 2147483647 := by
  have hq : 2147483648 ≤ fMag a / unit := (Nat.le_div_iff_mul_le unit_pos).mpr hge
  rw [f2iTrunc_eq h]
  generalize fMag a / unit = n at hq
  cases fNeg a with
  | false => exact clampInt_of_ge (by omega) (by simp only [signed, Bool.false_eq_true, if_false]; omega)
  | true => exact clampInt_of_le (by omega) (by simp only [signed, if_true]; omega)

/-- `f2i_trunc` discards the fraction and keeps the sign. -/
theorem f2iTrunc_truncates {a : F} (h : fIsNaN a = false) (hlt : |fVal a| < 2147483648 * (unit : Int)) :
    |f2iTrunc a| * unit ≤ |fVal a| ∧ |fVal a| < (|f2iTrunc a| + 1) * unit ∧
      (0 ≤ fVal a → 0 ≤ f2iTrunc a) ∧ (fVal a ≤ 0 → f2iTrunc a ≤ 0) := by
  rw [abs_fVal] at hlt ⊢
  rw [f2iTrunc_of_lt h (by exact_mod_cast hlt), abs_signed, fVal_eq_signed]
  simp only [signed_nonneg_iff, signed_nonpos_iff]
  have hzero : fMag a = 0 → fMag a / unit = 0 := fun e => by rw [e, Nat.zero_div]
  exact ⟨by exact_mod_cast Nat.div_mul_le_self (fMag a) unit,
    by exact_mod_cast Nat.lt_mul_of_div_lt (Nat.lt_succ_self _) unit_pos, Or.imp_right hzero, Or.imp_right hzero⟩

theorem f2iTrunc_saturates_up {a : F} (h : fIsNaN a = false) (hge : 2147483648 * (unit : Int) ≤ fVal a) :
    f2iTrunc a = 2147483647 := by
  have hu := unit_pos
  have hneg : fNeg a = false := fNeg_false_of_pos (by omega)
  have hmag := fVal_of_neg_false hneg
  rw [f2iTrunc_of_ge h (by omega), hneg]; rfl

theorem f2iTrunc_saturates_down {a : F} (h : fIsNaN a = false) (hle : fVal a ≤ -2147483648 * (unit : Int)) :
    f2iTrunc a = -2147483648 := by
  have hu := unit_pos
  have habs := fVal_natAbs a
  have hneg : fNeg a = true := by rw [← decide_neg (by omega)]; exact decide_eq_true (by omega)
  rw [f2iTrunc_of_ge h (by omega), hneg]; rfl

/-- `floor_i` of a finite value is the greatest integer not above it. -/
theorem floorInt_bounds {a : F} (h : fIsFinite a = true) :
    floorInt a * unit ≤ fVal a ∧ fVal a < (floorInt a + 1) * unit := by
  have hu : (0 : Int) < unit := by have := unit_pos; omega
  rw [floorInt_finite h]
  exact ⟨Int.ediv_mul_le _ (by omega), Int.lt_ediv_add_one_mul_self _ hu⟩

/-- Of a value that is not negative `nearestInt` is the nearest integer, a tie going up. -/
theorem nearestInt_of_nonneg {a : F} (h : 0 ≤ fVal a) :
    nearestInt a = ((2 * fMag a + unit) / (2 * unit) : Nat) := by
  have hu := unit_pos
  simp only [nearestInt]
  split
  · rename_i hneg
    have hmag : fMag a = 0 := by
      rw [fVal_eq_signed, hneg] at h
      simpa using signed_nonneg_iff.mp h
    rw [hmag, Nat.div_eq_of_lt (by omega)]; rfl
  · rfl

/-- `round_haz` on [0,32] is the nearest integer, a tie going up. -/
theorem roundHaz_nearest {a : F} (h0 : 0 ≤ fVal a) (h32 : fVal a ≤ 32 * (unit : Int)) :
    ∃ n : Int, fVal (roundHaz a) = n * unit ∧ 2 * n * unit - unit ≤ 2 * fVal a ∧
      2 * fVal a < 2 * n * unit + unit := by
  have hu := unit_pos
  have habs := fVal_natAbs a
  have hval : fVal a = (fMag a : Int) := by omega
  have hdm := Nat.div_add_mod (2 * fMag a + unit) (2 * unit)
  have hlt := Nat.mod_lt (2 * fMag a + unit) (show 0 < 2 * unit by omega)
  have hn : (2 * fMag a + unit) / (2 * unit) ≤ 32 := by
    rw [Nat.div_le_iff_le_mul (by omega)]; omega
  rw [roundHaz, nearestInt_of_nonneg h0]
  generalize (2 * fMag a + unit) / (2 * unit) = n at *
  refine ⟨n, (i2f_level (by omega) (by omega)).2.2, ?_⟩
  have hprod : 2 * (n : Int) * unit = ((2 * unit * n : Nat) : Int) := by push_cast; ring
  rw [hprod, hval]
  omega

/-- Settles O56: `one` is the unit of the values, 2^149, and each conversion divides by it or multiplies with it. -/
theorem conversionsAreAsTheRuleSays : Obligations.ConversionsAreAsTheRuleSays := by
  simp only [Obligations.ConversionsAreAsTheRuleSays, fVal_one]
  exact ⟨fun n h₁ h₂ => (i2f_level h₁ h₂).2.2, fun a h hlt => f2iTrunc_truncates h hlt,
    fun a h hge => f2iTrunc_saturates_up h hge, fun a h hle => f2iTrunc_saturates_down h hle,
    fun a h => by simp [f2iTrunc, h], fun a h _ => floorInt_bounds h,
    fun a _ h0 h32 => roundHaz_nearest h0 h32⟩

/-! ### The window parameter and the comparison (rules R47, R66, R71, R75, R86) -/

/-- Settles O18: the stored value is one of the 33 steps, whose length is its number. -/
theorem setpQuantisesTheWindow : Obligations.SetpQuantisesTheWindow := by
  intro d d' v hv
  obtain ⟨hq, hk⟩ := quant_spec d hv
  obtain ⟨-, hneg, hmag, -⟩ := windowStep_spec hk
  refine ⟨hq, hk, ?_, by rw [hq]; exact deriveW_windowStep d' hk⟩
  rw [fVal_of_neg_false hneg, fVal_one]
  exact_mod_cast hmag

/-- A clamp to a range around 0 does not make a value cross a level inside the range. -/
theorem clampInt_ge_iff {v b dr : Int} (h₁ : -b < dr) (h₂ : dr ≤ b) : clampInt v (-b) b ≥ dr ↔ v ≥ dr := by
  simp only [clampInt]; split
  · omega
  · split <;> omega

theorem clampInt_eq_zero_iff {v b : Int} (h : 0 < b) : clampInt v (-b) b = 0 ↔ v = 0 := by
  simp only [clampInt]; split
  · omega
  · split <;> omega

/-- Settles O47: the decision and the counter only ask on which side of a level, or of 0, `comp` lies. -/
theorem compBoundIsUnobservable : Obligations.CompBoundIsUnobservable := by
  intro comp b dr ds zr hb hdr hdr' _ _
  simp only [encBit, zeroRun, clampInt_ge_iff (v := comp) (show -b < dr by omega) (show dr ≤ b by omega),
    clampInt_eq_zero_iff (v := comp) (show 0 < b by omega), and_self]

/-- Settles O49: of a draw only the NaNs it delivers can be seen, and only in the output. -/
theorem nanDrawReachesOnlyTheResponse : Obligations.NaNDrawReachesOnlyTheResponse :=
  fun d d' _ x _ hr hc => ⟨sampleNext_draw d d' hr x hc, sampleOut_same d d' hr x hc⟩

end Sys2Proof.Machine
end

section
/-!
PROOFS. The boot sequence (rules R60, R61, R117): each of its commands is issued and then served, and writes one cell.
-/

namespace Sys2Proof.Machine

/-! ### A program on the control port -/

/-- Issuing a control command on a free port and taking it off again leaves the state as it was. -/
theorem takeCommand_issueCommand_control {s : State} (h : s.cport.pending = none) (w : Command) :
    takeCommand .control (issueCommand .control w s) = s := by
  obtain ⟨params, srate, chans, sport, ⟨pending, responses⟩, turns, draws⟩ := s
  cases h
  rfl

/-- A control command at the head of the schedule's program is executed by its two turns, and the rest of the program
follows. -/
theorem stepsTo_turnsOf_cons {i : Instr} {is : List Instr} {rest : List Turn} {s t u : State} {n : Nat}
    (hi : i.port = .control) (hturns : s.turns = turnsOf (i :: is) ++ rest) (hfree : s.cport.pending = none)
    (he : exec i { s with turns := turnsOf is ++ rest } = .next t) (h : StepsTo n t u) : StepsTo (n + 2) s u := by
  have hwf : i.wf = true := by
    cases i with
    | sample ch x => cases hi
    | setp | getp | setrate => rfl
  have hissue : s.turns = .issue .control (encode i) :: .serve .control :: (turnsOf is ++ rest) := by
    rw [hturns, turnsOf, List.flatMap_cons, hi]; rfl
  refine ⟨_, step_issue hissue hfree, t, ?_, h⟩
  rw [step_serve (p := .control) rfl, serve_instr (p := .control) rfl (decode_encode hwf) hi, ← he]
  exact congrArg (exec i)
    (takeCommand_issueCommand_control (s := { s with turns := turnsOf is ++ rest }) hfree (encode i))

/-- Written with no `SAMPLE` outstanding, a cell holds the new value alone. -/
theorem Cell.values_write_free (v : F) (c : Cell) : (c.write false v).values = [v] := by
  rw [Cell.values, (c.kept_write false v).past_nil]; rfl

/-! ### The boot sequence (rules R61, R117) -/

/-- What `SETP` stores in slot 2 is the nearest `k/32` (rule R86). -/
theorem storedValue_window (d : Nat) {w : F} (hw : inUnit w = true) :
    storedValue d 2 w = windowStep ((64 * fMag w + unit) / (2 * unit)) :=
  (if_pos rfl).trans (quant_spec d hw).1

/-- What `SETP` stores in any other slot is the value itself (rule R85). -/
theorem storedValue_other (d : Nat) {i : Fin 4} (hi : i ≠ 2) (v : F) : storedValue d i v = v := if_neg hi

/-- Settles O16: the five commands run one after the other, and no slot is written twice. -/
theorem bootSequenceSetsEveryCell : Obligations.BootSequenceSetsEveryCell := by
  intro r a d w m rest hr ha hd hw hm
  have hidle : State.reset.sport.pending = none := rfl
  refine ⟨_, stepsTo_turnsOf_cons rfl rfl rfl (exec_setrate hr _) <|
    stepsTo_turnsOf_cons rfl rfl rfl (exec_setp (idx := 0) (i := 0) rfl ha _) <|
    stepsTo_turnsOf_cons rfl rfl rfl (exec_setp (idx := 1) (i := 1) rfl hd _) <|
    stepsTo_turnsOf_cons rfl rfl rfl (exec_setp (idx := 2) (i := 2) rfl hw _) <|
    stepsTo_turnsOf_cons rfl rfl rfl (exec_setp (idx := 3) (i := 3) rfl hm _) rfl,
    Cell.values_write_free _ _, ?_, ?_, ?_, ?_, rfl, rfl, rfl, rfl⟩
  · simp [sampleBusy, hidle, Cell.values_write_free, storedValue_other]
  · simp [sampleBusy, hidle, Cell.values_write_free, storedValue_other]
  · simp [sampleBusy, hidle, Cell.values_write_free, storedValue_window, hw]
  · simp [sampleBusy, hidle, Cell.values_write_free, storedValue_other]

end Sys2Proof.Machine
end

section
/-!
PROOFS. The micro-operations of one `SAMPLE` (rules R64 to R82): the clock, the encode step, the cursor and the
commit, the output sample, and the working values derived from legal cells.
-/

namespace Sys2Proof.Machine

/-! ### The clock (rules R68, R69, R83 (a)) -/

/-- `CLK.threshold` keeps a clock below 1.0 and takes 1.0 off any other. -/
theorem clkThreshold_eq (d : Nat) (clk : F) : clkThreshold d clk
    = if flt clk 0x3F800000#32 then clk else fsub (quietNaN (d + 6)) clk 0x3F800000#32 := by
  rw [clkThreshold, stepped_eq]
  cases flt clk 0x3F800000#32 <;> rfl

/-- Settles O28: the clock of the next context is the advanced one after `CLK.threshold`. -/
theorem sampleAdvancesTheClock : Obligations.SampleAdvancesTheClock := by
  intro s ch x c hch d clk1
  refine ⟨sampleState c x s, exec_sample hch x s, ?_⟩
  rw [sampleState_chan_self, sampleNext_clk, clkThreshold_eq]
  rfl

/-- Settles O29: below 1.0 neither `ENC` nor `ADV` runs. -/
theorem sampleWithoutStepHolds : Obligations.SampleWithoutStepHolds := by
  intro s ch x c hch clk1 hlt
  have hheld : stepped clk1 = false := by rw [stepped_eq, hlt]; rfl
  refine ⟨sampleState c x s, exec_sample hch x s, ?_⟩
  rw [sampleState_chan_self, sampleNext_held hheld]

/-- A clock not below 1.0 makes the encode step run. -/
theorem stepped_of_flt {clk : F} (h : flt clk 0x3F800000#32 = false) : stepped clk = true := by
  rw [stepped_eq, h]; rfl

/-- A value that is no NaN, not negative and encoded at or above 1.0 is at least 1.0. -/
theorem one_le_of_enc {a : F} (h0 : 0 ≤ fVal a) (h : 1065353216 ≤ fEnc a) : (unit : Int) ≤ fVal a := by
  have := mt (lt_one_iff_enc h0).mp (by omega)
  omega

/-- From 33144 Hz on the increment of the clock is at least 1.0. -/
theorem one_le_rateStep (q : F) {r : F} (h : legalRate r = true) (hge : fVal 0x47017800#32 ≤ fVal r) :
    unit ≤ fMag (fdiv q r 0x47017800#32) := by
  have hmag : 33144 * unit ≤ fMag r := by
    have hemu := fVal_of_neg_false emu_facts.2.1
    have hr := fVal_natAbs r
    rw [emu_facts.2.2] at hemu
    omega
  rw [← one_facts.2.2.2.2, ← encMag_fEnc, (rateStep_spec q h).2.2, encMag_le_iff]
  refine le_roundEnc (by omega) (by rw [infEnc_val]; omega) ?_
  rwa [one_facts.2.2.2.2, Nat.mul_comm]

/-- A clock plus an increment of at least 1.0 is at least 1.0, also when it overflows. -/
theorem one_le_fadd_clock (q : F) {a b : F} (ha : clockOk a = true) (hb : fIsFinite b = true)
    (hneg : fNeg b = false) (hge : unit ≤ fMag b) : (unit : Int) ≤ fVal (fadd q a b) := by
  obtain ⟨hn, h0⟩ := clockOk_iff.mp ha
  have hb0 : 0 ≤ fVal b := by rw [fVal_of_neg_false hneg]; omega
  have hsum := (clockOk_iff.mp (clockOk_fadd q ha hb hb0)).2
  refine one_le_of_enc hsum ?_
  cases hi : fIsInf a with
  | true =>
    have henc : fEnc a = infEnc := of_decide_eq_true hi
    rw [(fadd_inf q hi hb).1, henc, infEnc_val]; omega
  | false =>
    rw [(fadd_nonneg q (finite_of_not hn hi) hb h0 hb0).1]
    refine le_roundEnc (by omega) (by rw [infEnc_val]; omega) ?_
    rw [one_facts.2.2.2.2]; omega

/-- Settles O37: the increment is at least 1.0, and the clock it is added to is not negative. -/
theorem fastRateStepsEverySample : Obligations.FastRateStepsEverySample := by
  intro d r c hr hge hclk
  obtain ⟨hfin, hneg, -⟩ := rateStep_spec (quietNaN (d + 4)) hr
  exact (stepped_iff (clockOk_clkNext d hr hclk)).mpr
    (one_le_fadd_clock _ hclk hfin hneg (one_le_rateStep _ hr hge))

/-! ### The encode step (rules R70 to R75) -/

/-- The bit decided (rule R71). -/
theorem encBit_eq (comp dr ds : Int) : encBit comp dr ds
    = if decide ((comp ≥ dr ∧ dr < ds) ∨ dr ≤ -ds) then .up else .down := by
  simp only [encBit, decide_eq_true_eq]

/-- The level moves by one in the direction of the bit (rule R71). -/
theorem encLevel_ite (up : Bool) (dr : Int) :
    encLevel (if up then .up else .down) dr = if up then dr + 1 else dr - 1 := by
  cases up <;> rfl

/-- Settles O30: `ADV` leaves what `ENC` has written, element by element. -/
theorem sampleEncodeStep : Obligations.SampleEncodeStep := by
  intro s ch x c hch d r o gain ds comp up hstep
  have hbit : encBit comp o.dr ds = if up then .up else .down := encBit_eq comp o.dr ds
  refine ⟨sampleState c x s, exec_sample hch x s, ?_⟩
  rw [sampleState_chan_self, sampleNext_dr, sampleNext_qb, sampleNext_dout, sampleNext_zr,
    afterEnc_stepped (stepped_of_flt hstep)]
  refine ⟨?_, fun j => ?_, ?_, rfl⟩
  · rw [← encLevel_ite, ← hbit]; rfl
  · rw [← hbit, Fin.getElem_fin, encodeStep_qb]
    simp only [Fin.ext_iff, eq_comm (a := j.val)]
    rfl
  · rw [encodeStep_dout]
    cases o.qc[o.qi] <;> rfl

/-! ### The cursor and the commit (rules R79 to R81) -/

section Advance

variable {w ew : Int} {c : Channel}

/-- Before the end of the window `ADV` moves the cursor on and commits nothing. -/
theorem advance_inside (h : (c.qi.val : Int) + 1 < ew) (hew : ew ≤ 32) :
    (advance w ew c).qi.val = c.qi.val + 1 ∧ (advance w ew c).qc = c.qc := by
  have hwrap : wraps ew c.qi = false := decide_eq_false (by omega)
  rw [advance, hwrap]
  exact ⟨nextCursor_val (by simp only [Config.QLEN]; omega), rfl⟩

/-- At the end of the window `ADV` sets the cursor to 0 and commits the building window. -/
theorem advance_wrap (h : (c.qi.val : Int) + 1 ≥ ew) :
    (advance w ew c).qi = 0 ∧ (advance w ew c).qc = commit w c.qb c.qc := by
  have hwrap : wraps ew c.qi = true := decide_eq_true h
  rw [advance, hwrap]
  exact ⟨rfl, rfl⟩

end Advance

section Commit

variable (qb qc : Vector Delta Config.QLEN) {i : Nat} (hi : i < Config.QLEN)

/-- `COMMIT.identity` copies every entry (`IDENT_COPY_LEN` = 32). -/
theorem commit_zero : (commit 0 qb qc)[i] = qb[i] := by
  have hlen : i < Config.IDENT_COPY_LEN := hi
  simp [commit, commitIdentity, hlen]

/-- `COMMIT.reverse` takes the mirrored entry below `W`. -/
theorem commit_reverse {w : Int} (hw : w ≠ 0) {j : Nat} (hj : j < Config.QLEN) (hij : (i : Int) + j + 1 = w) :
    (commit w qb qc)[i] = qb[j] := by
  have hlt : (i : Int) < w := by omega
  simp only [commit, hw, if_false, commitReverse, Vector.getElem_ofFn, hlt, if_true]
  exact entryAt_of_eq qb hj (by omega)

/-- `COMMIT.reverse` leaves the entries from `W` on. -/
theorem commit_beyond {w : Int} (hw : w ≠ 0) (h : w ≤ (i : Int)) : (commit w qb qc)[i] = qc[i] := by
  have hlt : ¬ (i : Int) < w := by omega
  simp [commit, hw, commitReverse, hlt]

end Commit

/-- Settles O31: the modulus is at most 32, so the cursor either moves on inside the window or wraps. -/
theorem sampleMovesTheCursorAndCommits : Obligations.SampleMovesTheCursorAndCommits := by
  intro s ch x c hch hinv d r o w ew hstep
  obtain ⟨k, hk, -, hewk⟩ := derive_window d (readCells_legal hinv.params hinv.srate)
  have hew : ew ≤ 32 := by
    have : ew = if k = 0 then 8 else (k : Int) := hewk
    rw [this]; split <;> omega
  have hs := stepped_of_flt hstep
  have hnext : (sampleState c x s).chans[c] = advance w ew (afterEnc d r x o) := by
    rw [sampleState_chan_self]; exact sampleNext_stepped hs x
  have henc := afterEnc_stepped hs x
  have hqi : (afterEnc d r x o).qi = o.qi := by rw [henc]; rfl
  have hqc : (afterEnc d r x o).qc = o.qc := by rw [henc]; rfl
  refine ⟨sampleState c x s, exec_sample hch x s, fun h => ?_, fun h => ?_⟩
  · rw [hnext, ← hqi, ← hqc]
    exact advance_inside (by rwa [hqi]) hew
  · obtain ⟨hcur, hcommit⟩ := advance_wrap (w := w) (ew := ew) (c := afterEnc d r x o) (by rwa [hqi])
    rw [hnext, hcommit, hqc, advance_qb]
    refine ⟨hcur, fun hw i => ?_, fun hw => ⟨fun i j hij => ?_, fun i hi => ?_⟩⟩
    · rw [hw]; exact commit_zero _ _ i.isLt
    · exact commit_reverse _ _ i.isLt hw j.isLt hij
    · exact commit_beyond _ _ i.isLt hw hi

/-! ### The output sample (rules R67, R78, R82) -/

/-- `REC` is the quotient of the levels below 16 steps without input, and +0.0 from there on. -/
theorem recLevel_eq (d : Nat) (ds dout : Int) (zr : Nat) : recLevel d ds dout zr
    = if zr < 16 then fdiv (quietNaN (d + 9)) (i2f dout) (i2f ds) else 0x00000000#32 := by
  simp only [recLevel, gateOpen, decide_eq_true_eq]
  rfl

/-- Settles O32: `MIX` of the level that `REC` makes of what `ENC` has left in the channel. -/
theorem sampleAnswersTheMix : Obligations.SampleAnswersTheMix := by
  intro s ch x c hch d r gain ds
  refine ⟨sampleState c x s, exec_sample hch x s, ?_⟩
  simp only [sampleState_chan_self, sampleNext_zr, sampleNext_dout]
  rw [← recLevel_eq]
  rfl

/-! ### The working values (rules R64, R66) -/

/-- Settles O34: the product with 4.0 is exact, and 4.0 is positive. -/
theorem gainIsFourTimesTheAmplitude : Obligations.GainIsFourTimesTheAmplitude :=
  fun d _ h => ⟨fVal_deriveGain d h, (deriveGain_spec d h).2.2⟩

/-- Settles O35: the product of `k/32` with 32.0 is exactly `k`. -/
theorem windowLengthOfTheStoredValue : Obligations.WindowLengthOfTheStoredValue :=
  fun d _ h => ⟨deriveW_windowStep d h, effectiveWindow_windowStep d h⟩

end Sys2Proof.Machine
end

section
/-!
PROOFS. The output sample in the corners (rules R82 to R84, R118): the wet and the dry term of `MIX` at amplitude 0,
at mix 0 and 1, and for an input that is not finite.
-/

namespace Sys2Proof.Machine

/-! ### Results that do not depend on the NaN offered (rule R46) -/

section Operands

variable {a b : F} (ha : fIsNaN a = false) (hb : fIsFinite b = true) (h0 : fVal b ≠ 0)
include ha hb h0

/-- A product with a finite factor that is not zero is no NaN. -/
theorem fIsNaN_fmul (q : F) : fIsNaN (fmul q a b) = false := by
  cases hi : fIsInf a with
  | true => rw [fmul_inf q hi (not_isNaN_of_finite hb) h0]; exact not_isNaN_of_isInf (isInf_pack _)
  | false => rw [fmul_finite q (finite_of_not ha hi) hb]; exact fIsNaN_roundPack ..

theorem fmul_draw (q q' : F) : fmul q a b = fmul q' a b := by
  cases hi : fIsInf a with
  | true => rw [fmul_inf q hi (not_isNaN_of_finite hb) h0, fmul_inf q' hi (not_isNaN_of_finite hb) h0]
  | false => rw [fmul_finite q (finite_of_not ha hi) hb, fmul_finite q' (finite_of_not ha hi) hb]

theorem fdiv_draw (q q' : F) : fdiv q a b = fdiv q' a b := by
  have hmag : fMag b ≠ 0 := fun h => h0 ((fMag_eq_zero_iff b).mp h)
  cases hi : fIsInf a with
  | true => rw [fdiv_inf q hi hb, fdiv_inf q' hi hb]
  | false => rw [fdiv_finite q (finite_of_not ha hi) hb hmag, fdiv_finite q' (finite_of_not ha hi) hb hmag]

end Operands

/-- A zero divided by a value that is not zero is a zero. -/
theorem zero_fdiv (q : F) {a b : F} (ha : fVal a = 0) (hb : fIsFinite b = true) (h0 : fVal b ≠ 0) :
    fVal (fdiv q a b) = 0 := by
  have hmag : fMag b ≠ 0 := fun h => h0 ((fMag_eq_zero_iff b).mp h)
  rw [fdiv_finite q (zero_finite ha) hb hmag, ← fMag_eq_zero_iff, fMag_eq_zero_iff_enc, fEnc_roundPack,
    (fMag_eq_zero_iff a).mpr ha, Nat.zero_mul]
  exact roundEnc_zero (Nat.pos_of_ne_zero hmag)

theorem f2iTrunc_of_zero {a : F} (h : fVal a = 0) : f2iTrunc a = 0 := by
  have hmag := (fMag_eq_zero_iff a).mpr h
  have hlt : fMag a < 2147483648 * unit := by rw [hmag]; exact Nat.mul_pos (by omega) unit_pos
  rw [f2iTrunc_of_lt (not_isNaN_of_finite (zero_finite h)) hlt, hmag, Nat.zero_div, signed_zero]

theorem f2iTrunc_of_isNaN {a : F} (h : fIsNaN a = true) : f2iTrunc a = 0 := by simp only [f2iTrunc, h, if_true]

/-- Whatever is multiplied by a zero, `f2i_trunc` of the product is 0: a zero, or the NaN offered. -/
theorem f2iTrunc_fmul_zero {q a b : F} (hq : fIsNaN q = true) (hb : fVal b = 0) : f2iTrunc (fmul q a b) = 0 := by
  cases hn : fIsNaN a with
  | true => rw [(operations_of_isNaN q (.inl hn)).2.2.1, f2iTrunc_of_isNaN hq]
  | false =>
    cases hi : fIsInf a with
    | true => rw [fmul_inf_zero q hi hb, f2iTrunc_of_isNaN hq]
    | false => exact f2iTrunc_of_zero (fmul_zero q (finite_of_not hn hi) hb)

section NaNOperand

variable {k : Nat} {a b : F}

theorem isNaN_fmul_left (h : fIsNaN a = true) : fIsNaN (fmul (quietNaN k) a b) = true :=
  (operations_of_isNaN _ (.inl h)).2.2.1 ▸ isNaN_quietNaN k

theorem isNaN_fadd_right (h : fIsNaN b = true) : fIsNaN (fadd (quietNaN k) a b) = true :=
  (operations_of_isNaN _ (.inr h)).1 ▸ isNaN_quietNaN k

theorem isNaN_fdiv_left (h : fIsNaN a = true) : fIsNaN (fdiv (quietNaN k) a b) = true :=
  (operations_of_isNaN _ (.inl h)).2.2.2.1 ▸ isNaN_quietNaN k

end NaNOperand

/-! ### The gain and the mix of legal reads -/

section Legal

variable (d : Nat) {r : Reads} (hr : r.Legal)
include hr

/-- The gain of a non-zero amplitude is finite and positive. -/
theorem gain_pos (h0 : fVal r.p0 ≠ 0) : fIsFinite (deriveGain d r.p0) = true ∧ 0 < fVal (deriveGain d r.p0) ∧
    fNeg (deriveGain d r.p0) = false := by
  obtain ⟨-, hlo, -⟩ := inUnit_iff.mp hr.1
  have hpos : 0 < fVal (deriveGain d r.p0) := by rw [fVal_deriveGain d hr.1]; omega
  exact ⟨(deriveGain_spec d hr.1).1, hpos, fNeg_false_of_pos hpos⟩

/-- The product of a finite input and `1.0 - mix` is finite. -/
theorem dry_finite (q q' : F) {x : F} (hx : fIsFinite x = true) :
    fIsFinite (fmul q x (fsub q' 0x3F800000#32 r.p3)) = true := by
  obtain ⟨hfin, hmag, -⟩ := one_sub_spec q' hr.2.2.2.1
  exact (fmul_le q hx hfin hmag).1

end Legal

/-! ### Amplitude 0 (rules R82, R118) -/

/-- Settles O42: the dry term is a zero, so the wet one alone is divided by the zero gain. -/
theorem zeroAmplitudeGivesInfinityOrNaN : Obligations.ZeroAmplitudeGivesInfinityOrNaN := by
  intro d r x c hr hc h0 hx wet
  have hgain : fVal (deriveGain d r.p0) = 0 := by rw [fVal_deriveGain d hr.1, h0]; rfl
  have hneg : fNeg (deriveGain d r.p0) = fNeg r.p0 := (deriveGain_spec d hr.1).2.2
  have hwet : fIsFinite wet = true := wet_finite d hr x _ hc
  have hdry := fmul_zero (quietNaN (d + 13)) (dry_finite hr (quietNaN (d + 12)) (quietNaN (d + 11)) hx) hgain
  rw [sampleOut_eq]
  refine ⟨f2iTrunc_fmul_zero (isNaN_quietNaN _) hgain, fun hw => ?_, fun hw => ?_⟩
  · rw [fdiv_zero_zero _ (fadd_zeros _ hw hdry) hgain]
    exact isNaN_quietNaN _
  · rw [fadd_zero_right _ hdry (not_isNaN_of_finite hwet) hw, fdiv_zero _ hwet hw hgain, hneg]
    exact ⟨isInf_pack _, fNeg_pack_inf _⟩

/-! ### Inputs that are not finite (rule R84) -/

/-- A NaN input makes every operation on it a NaN. -/
theorem nan_input (d : Nat) (r : Reads) {x : F} (c : Channel) (hx : fIsNaN x = true) :
    encComp d x (derive d r).ds (derive d r).gain = 0 ∧ fIsNaN (sampleOut d r x c) = true :=
  ⟨f2iTrunc_of_isNaN (isNaN_fmul_left (isNaN_fmul_left hx)),
    isNaN_fdiv_left (isNaN_fadd_right (isNaN_fmul_left (isNaN_fmul_left hx)))⟩

/-- An infinity times a positive value is itself. -/
theorem fmul_inf_pos (q : F) {a b : F} (ha : fIsInf a = true) (hb : fIsNaN b = false) (h : 0 < fVal b) :
    fmul q a b = a := by
  rw [fmul_inf q ha hb (by omega), fNeg_false_of_pos h, Bool.xor_false, ← isInf_eq ha]

/-- `f2i_trunc` of an infinity is the bound on its side. -/
theorem f2iTrunc_inf {a : F} (h : fIsInf a = true) :
    f2iTrunc a = if fNeg a then -2147483648 else 2147483647 := by
  have henc : fEnc a = infEnc := of_decide_eq_true h
  refine f2iTrunc_of_ge (not_isNaN_of_isInf h) ?_
  rw [← encMag_fEnc, henc]
  decide

/-- An infinite input saturates `comp` with its sign. -/
theorem encComp_inf {d : Nat} {x g : F} {ds : Int} (hx : fIsInf x = true) (h1 : 1 ≤ ds) (h2 : ds ≤ 256)
    (hg : fIsFinite g = true) (hpos : 0 < fVal g) :
    encComp d x ds g = if fNeg x then -2147483648 else 2147483647 := by
  obtain ⟨hfin, -, hval⟩ := i2f_level (n := ds) (by omega) h2
  have hds : 0 < fVal (i2f ds) := by rw [hval]; exact mul_pos (by omega) (by have := unit_pos; omega)
  rw [encComp, fmul_inf_pos _ hx (not_isNaN_of_finite hfin) hds, fmul_inf_pos _ hx (not_isNaN_of_finite hg) hpos,
    f2iTrunc_inf hx]

section InfiniteInput

variable (d : Nat) {r : Reads} (hr : r.Legal) {x : F} (hx : fIsInf x = true) {c : Channel} (hc : c.Ok)
include hr hx hc

/-- Below mix 1.0 the dry term is the infinite input itself, and so is the output. -/
theorem sampleOut_inf (h0 : fVal r.p0 ≠ 0) (hmix : fVal r.p3 < (unit : Int)) : sampleOut d r x c = x := by
  obtain ⟨hg, hpos, hneg⟩ := gain_pos d hr h0
  obtain ⟨hfin, -, -, -, hsub⟩ := one_sub_spec (quietNaN (d + 11)) hr.2.2.2.1
  rw [sampleOut_eq, fmul_inf_pos _ hx (not_isNaN_of_finite hfin) (hsub hmix),
    fmul_inf_pos _ hx (not_isNaN_of_finite hg) hpos, (fadd_inf _ hx (wet_finite d hr x _ hc)).2, fdiv_inf _ hx hg,
    hneg, Bool.xor_false, ← isInf_eq hx]

omit hc in
/-- At mix 1.0 the dry term is an infinity times 0. -/
theorem sampleOut_inf_wet (hmix : fVal r.p3 = (unit : Int)) : fIsNaN (sampleOut d r x c) = true := by
  obtain ⟨-, -, -, hsub, -⟩ := one_sub_spec (quietNaN (d + 11)) hr.2.2.2.1
  rw [sampleOut_eq, fmul_inf_zero _ hx (hsub hmix)]
  exact isNaN_fdiv_left (isNaN_fadd_right (isNaN_fmul_left (isNaN_quietNaN _)))

end InfiniteInput

/-- Settles O43: the input reaches `comp` and the output, and the clock does not depend on it. -/
theorem nonFiniteInputDamagesOneOutput : Obligations.NonFiniteInputDamagesOneOutput := by
  intro d r x c hr hc
  obtain ⟨-, -, -, -, hclk⟩ := sampleNext_ok d hr x hc
  rw [fVal_one]
  refine ⟨nan_input d r c, fun hx h0 => ⟨?_, fun hmix => ?_, sampleOut_inf_wet d hr hx⟩, hclk⟩
  · obtain ⟨h1, h2⟩ := derive_ds d hr
    obtain ⟨hg, hpos, -⟩ := gain_pos d hr h0
    exact encComp_inf hx h1 h2 hg hpos
  · rw [sampleOut_inf d hr hx hc h0 hmix]
    exact ⟨hx, rfl⟩

/-! ### Mix 0 (rule R83 (b)) -/

/-- Settles O44: the wet term is a zero, and the dry one is the product of the input and the gain. -/
theorem dryPassthrough : Obligations.DryPassthrough := by
  intro d r x q q' c hr hc hmix h0 hx z hz
  obtain ⟨hg, hpos, -⟩ := gain_pos d hr h0
  obtain ⟨-, -, hone, -, -⟩ := one_sub_spec (quietNaN (d + 11)) hr.2.2.2.1
  have hne : fVal (deriveGain d r.p0) ≠ 0 := by omega
  have hwet := fmul_zero (quietNaN (d + 10)) (sampleLevel_spec d hr x hc).1 hmix
  have hnan := fIsNaN_fmul hx hg hne q'
  have hprod : fVal (fmul q' x (deriveGain d r.p0)) ≠ 0 := fun h => hz (zero_fdiv q h hg hne)
  rw [sampleOut_eq, hone hmix, fmul_one _ hx, fmul_draw hx hg hne _ q', fadd_zero_left _ hwet hnan hprod]
  exact fdiv_draw hnan hg hne _ q

/-! ### Mix 1.0 (rule R83 (c)) -/

/-- A zero does not make a sum larger. -/
theorem fMag_fadd_zero_le (q : F) {a z : F} (ha : fIsFinite a = true) (hz : fVal z = 0) :
    fIsFinite (fadd q a z) = true ∧ fMag (fadd q a z) ≤ fMag a := by
  by_cases h0 : fVal a = 0
  · have h := fadd_zeros q h0 hz
    exact ⟨zero_finite h, by rw [(fMag_eq_zero_iff _).mpr h]; omega⟩
  · rw [fadd_zero_right q hz (not_isNaN_of_finite ha) h0]
    exact ⟨ha, le_rfl⟩

/-- Division by one value keeps the order of the magnitudes. -/
theorem fMag_fdiv_le (q q' : F) {a a' b : F} (ha : fIsFinite a = true) (ha' : fIsFinite a' = true)
    (hb : fIsFinite b = true) (h0 : fVal b ≠ 0) (h : fMag a ≤ fMag a') :
    fMag (fdiv q a b) ≤ fMag (fdiv q' a' b) := by
  have hmag : fMag b ≠ 0 := fun h => h0 ((fMag_eq_zero_iff b).mp h)
  rw [fdiv_finite q ha hb hmag, fdiv_finite q' ha' hb hmag, fMag_le_iff, fEnc_roundPack, fEnc_roundPack]
  exact roundEnc_mono (Nat.pos_of_ne_zero hmag) (Nat.pos_of_ne_zero hmag)
    (Nat.mul_le_mul_right _ (Nat.mul_le_mul_right _ h))

/-- Settles O45: the dry term is a zero, and after an encode step the level is at most 1.0 in magnitude. -/
theorem wetOutputIsBounded : Obligations.WetOutputIsBounded := by
  intro d r x q c hr hc hmix h0 hx hstep
  obtain ⟨hg, hpos, -⟩ := gain_pos d hr h0
  obtain ⟨hlevel, hle⟩ := sampleLevel_spec d hr x hc
  obtain ⟨hsubf, -, -, hsub, -⟩ := one_sub_spec (quietNaN (d + 11)) hr.2.2.2.1
  have hne : fVal (deriveGain d r.p0) ≠ 0 := by omega
  have hdry := zero_fmul (quietNaN (d + 13))
    (fmul_zero (quietNaN (d + 12)) hx (hsub (by rw [hmix, fVal_one]))) hg
  obtain ⟨hfin, hmag⟩ := fMag_fadd_zero_le (quietNaN (d + 14)) hlevel hdry
  have hone : fMag (sampleLevel d r x c) ≤ fMag 0x3F800000#32 := one_facts.2.2.1 ▸ hle hstep
  rw [sampleOut_eq]
  rw [hmix] at hfin hmag ⊢
  rw [fmul_one _ (not_isNaN_of_finite hlevel)]
  refine ⟨?_, fMag_fdiv_le _ _ hfin one_facts.1 hg hne (hmag.trans hone)⟩
  rw [fdiv_finite _ hfin hg fun h => hne ((fMag_eq_zero_iff _).mp h)]
  exact fIsNaN_roundPack ..

end Sys2Proof.Machine
end

section
/-!
PROOFS. Runs of one channel (rules R75, R78 to R81, R83): the zero-run counter and the gate, and the window as it is
built, committed and replayed.
-/

namespace Sys2Proof.Machine

section Run

variable {d : Nat → Nat} {r : Nat → Reads} {x : Nat → F} {c : Channel}

/-! ### Counting encode steps -/

theorem stepCount_stepped {n : Nat} (h : runSteps d r x c n = true) :
    stepCount d r x c (n + 1) = stepCount d r x c n + 1 := by rw [stepCount_succ, if_pos h]

theorem stepCount_held {n : Nat} (h : runSteps d r x c n = false) :
    stepCount d r x c (n + 1) = stepCount d r x c n := by
  rw [stepCount_succ, h]; rfl

theorem stepCount_mono : Monotone (stepCount d r x c) :=
  monotone_nat_of_le_succ fun n => by rw [stepCount_succ]; omega

/-- The steps are numbered in the order in which they run. -/
theorem stepCount_lt {m n : Nat} (hm : runSteps d r x c m = true) (h : m < n) :
    stepCount d r x c m < stepCount d r x c n := by
  have := stepCount_mono (d := d) (r := r) (x := x) (c := c) (show m + 1 ≤ n from h)
  rw [stepCount_stepped hm] at this
  omega

/-- A step is known by its number. -/
theorem eq_of_stepCount_eq {m n : Nat} (hm : runSteps d r x c m = true) (hn : runSteps d r x c n = true)
    (h : stepCount d r x c m = stepCount d r x c n) : m = n := by
  rcases Nat.lt_trichotomy m n with hlt | rfl | hlt
  · have := stepCount_lt hm hlt; omega
  · rfl
  · have := stepCount_lt hn hlt; omega

/-! ### The gate (rules R75, R78, R83 (d)) -/

theorem sampleNext_zr_stepped {n : Nat} (h : runSteps d r x c n = true) :
    (sampleRun d r x c (n + 1)).zr = zeroRun (runComp d r x n) (sampleRun d r x c n).zr := by
  rw [sampleRun_succ, sampleNext_zr, afterEnc_stepped h]; rfl

/-- While every encode step has `comp` 0, the zero-run counter counts them. -/
theorem stepCount_le_zr {n : Nat} (h : ∀ i, i < n → runSteps d r x c i = true → runComp d r x i = 0) :
    stepCount d r x c n ≤ (sampleRun d r x c n).zr := by
  induction n with
  | zero => exact Nat.zero_le _
  | succ n ih =>
    have ih := ih fun i hi => h i (by omega)
    cases hs : runSteps d r x c n with
    | false => rw [stepCount_held hs, sampleRun_succ, sampleNext_held hs]; exact ih
    | true =>
      rw [stepCount_stepped hs, sampleNext_zr_stepped hs, h n (by omega) hs]
      exact Nat.succ_le_succ ih

/-- Settles O39: the level is taken from the counter after the last `SAMPLE`, which is at least 16. -/
theorem silenceGateCloses : Obligations.SilenceGateCloses := by
  intro d r x c n hcomp hcount
  have hzr : stepCount d r x c (n + 1) ≤ (sampleRun d r x c (n + 1)).zr :=
    stepCount_le_zr fun i hi => hcomp i (by omega)
  rw [sampleRun_succ, sampleNext_zr] at hzr
  rw [sampleLevel, recLevel_eq, if_neg (by omega)]

/-! ### The window (rules R73, R79 to R81) -/

/-- The encode step numbered `t` emits the bit `b`. -/
def Emits (d : Nat → Nat) (r : Nat → Reads) (x : Nat → F) (c : Channel) (t : Nat) (b : Delta) : Prop :=
  ∃ m, runSteps d r x c m = true ∧ stepCount d r x c m = t ∧ runBit d r x c m = b

theorem Emits.unique {t : Nat} {b b' : Delta} (h : Emits d r x c t b) (h' : Emits d r x c t b') : b = b' := by
  obtain ⟨m, hm, rfl, rfl⟩ := h
  obtain ⟨m', hm', heq, rfl⟩ := h'
  rw [eq_of_stepCount_eq hm hm' heq.symm]

end Run

/-- The modulus of a window parameter `k/32` (rule R66). -/
def modulus (k : Nat) : Nat := if k = 0 then 8 else k

/-- Where a commit puts the entry at position `j` of the building window. -/
def replaySlot (k j : Nat) : Nat := if k = 0 then j else k - 1 - j

theorem modulus_pos (k : Nat) : 0 < modulus k := by simp only [modulus]; split <;> omega

theorem modulus_le {k : Nat} (hk : k ≤ 32) : modulus k ≤ 32 := by simp only [modulus]; split <;> omega

theorem replaySlot_lt {k j : Nat} (hj : j < modulus k) : replaySlot k j < modulus k := by
  simp only [modulus, replaySlot] at *; split_ifs at * <;> omega

/-- A commit puts every entry of the window built where it is replayed. -/
theorem commit_replaySlot {k j : Nat} (hk : k ≤ 32) (hj : j < modulus k) (qb qc : Vector Delta Config.QLEN)
    (hslot : replaySlot k j < Config.QLEN) (hj' : j < Config.QLEN) :
    (commit k qb qc)[replaySlot k j] = qb[j] := by
  by_cases h0 : k = 0
  · subst h0
    exact commit_zero qb qc hj'
  · refine commit_reverse qb qc hslot (by omega) hj' ?_
    simp only [modulus, replaySlot, h0, if_false] at *
    omega

/-- The reset context with any clock. -/
abbrev Channel.resetWith (clk : F) : Channel := { Channel.reset with clk := clk }

/-- A channel in window `q` at position `j` of it, where the encode step numbered `t` has emitted the bits `b`
with `E t b`: what it has built of this window and, unless it is the first, holds committed of the one before. -/
structure Channel.InWindow (E : Nat → Delta → Prop) (k q j : Nat) (o : Channel) : Prop where
  cursor : o.qi.val = j
  inside : j < modulus k
  first : q = 0 → ∀ i (h : i < Config.QLEN), o.qc[i] = .zero
  built : ∀ i (h : i < Config.QLEN) b, i < j → E (modulus k * q + i) b → o.qb[i] = b
  committed : ∀ p i (h : replaySlot k i < Config.QLEN) b, q = p + 1 → i < modulus k → E (modulus k * p + i) b →
    o.qc[replaySlot k i] = b

namespace Channel.InWindow

variable {E : Nat → Delta → Prop} {k q j : Nat} {o : Channel}

theorem reset (E : Nat → Delta → Prop) (k : Nat) (clk : F) :
    (resetWith clk).InWindow E k 0 0 where
  cursor := rfl
  inside := modulus_pos k
  first _ i h := Channel.reset_qc i h
  built i _ _ h := absurd h (by omega)
  committed p _ _ _ h := absurd h (by omega)

/-- Only the cursor and the two windows count. -/
theorem congr {o' : Channel} (h : o.InWindow E k q j) (hqi : o'.qi = o.qi) (hqb : o'.qb = o.qb)
    (hqc : o'.qc = o.qc) : o'.InWindow E k q j := by
  obtain ⟨h1, h2, h3, h4, h5⟩ := h
  exact ⟨by rw [hqi]; exact h1, h2, by rw [hqc]; exact h3, by rw [hqb]; exact h4, by rw [hqc]; exact h5⟩

/-- The entry a step replays, when it stands where the commit has put the `i`-th of the window before. -/
theorem replayed {p i : Nat} {b : Delta} (h : o.InWindow E k (p + 1) j) (hi : i < modulus k)
    (hslot : replaySlot k i = j) (hb : E (modulus k * p + i) b) : o.qc[o.qi] = b := by
  have hqi : replaySlot k i = o.qi.val := hslot.trans h.cursor.symm
  simp only [Fin.getElem_fin, ← hqi]
  exact h.committed p i (hqi ▸ o.qi.isLt) b rfl hi hb

/-- An encode step emits the bit numbered next and either moves on inside its window or, at the end of it, commits
the window and starts the next one. -/
theorem step (h : o.InWindow E k q j) (hk : k ≤ 32) {b : Delta} (hE : ∀ b', E (modulus k * q + j) b' → b' = b)
    {o' : Channel} (hqi : o'.qi = o.qi) (hqc : o'.qc = o.qc)
    (hqb : ∀ i (hi : i < Config.QLEN), o'.qb[i] = if o.qi.val = i then b else o.qb[i]) :
    ∃ q' j', modulus k * q' + j' = modulus k * q + j + 1 ∧ (advance k (modulus k) o').InWindow E k q' j' := by
  have hle := modulus_le hk
  obtain ⟨hcur, hin, hfirst, hbuilt, hcommitted⟩ := h
  have hbuilt' : ∀ i (hi : i < Config.QLEN) b', i < j + 1 → E (modulus k * q + i) b' → o'.qb[i] = b' := by
    intro i hi b' hij hb'
    rw [hqb, hcur]
    split
    · rename_i hji; subst hji; exact (hE b' hb').symm
    · exact hbuilt i hi b' (by omega) hb'
  by_cases hend : j + 1 < modulus k
  · obtain ⟨hqi', hqc'⟩ := advance_inside (w := k) (ew := modulus k) (c := o') (by rw [hqi]; omega) (by omega)
    refine ⟨q, j + 1, rfl, ?_, hend, ?_, ?_, ?_⟩
    · rw [hqi', hqi, hcur]
    · rw [hqc', hqc]; exact hfirst
    · rw [advance_qb]; exact hbuilt'
    · rw [hqc', hqc]; exact hcommitted
  · obtain ⟨hqi', hqc'⟩ := advance_wrap (w := k) (ew := modulus k) (c := o') (by rw [hqi]; omega)
    refine ⟨q + 1, 0, by rw [Nat.mul_succ]; omega, by rw [hqi']; rfl, by omega, by omega,
      fun _ _ _ hi => by omega, ?_⟩
    intro p i hslot b' hp hi hb'
    obtain rfl : p = q := by omega
    have hi' : i < Config.QLEN := by simp only [Config.QLEN]; omega
    rw [hqc', commit_replaySlot hk hi _ _ hslot hi']
    exact hbuilt' i hi' b' (by omega) hb'

end Channel.InWindow

/-- The place of a number among windows of one length. -/
theorem window_unique {a q q' j j' : Nat} (h : a * q + j = a * q' + j') (hj : j < a) (hj' : j' < a) :
    q = q' ∧ j = j' := by
  have hpos : 0 < a := by omega
  obtain ⟨hdiv, hmod⟩ := (Nat.div_mod_unique hpos).mpr ⟨Nat.add_comm .., hj⟩
  obtain ⟨hdiv', hmod'⟩ := (Nat.div_mod_unique hpos).mpr ⟨Nat.add_comm .., hj'⟩
  rw [h] at hdiv hmod
  exact ⟨hdiv.symm.trans hdiv', hmod.symm.trans hmod'⟩

section FromReset

variable {d : Nat → Nat} {r : Nat → Reads} {x : Nat → F} {clk : F} {k : Nat} (hk : k ≤ 32)
  (hp2 : ∀ i, (r i).p2 = windowStep k)
include hk hp2

/-- With the window parameter `k/32` the window length is `k` and the modulus that of `k`. -/
theorem derive_modulus (n : Nat) : (derive (d n) (r n)).w = k ∧ (derive (d n) (r n)).ew = modulus k := by
  have hw : (derive (d n) (r n)).w = k := by
    show deriveW (d n) (r n).p2 = k
    rw [hp2, deriveW_windowStep _ hk]
  have hew : (derive (d n) (r n)).ew = if k = 0 then 8 else (k : Int) := by
    show effectiveWindow (deriveW (d n) (r n).p2) = _
    rw [hp2, effectiveWindow_windowStep _ hk]
  refine ⟨hw, hew.trans ?_⟩
  simp only [modulus]; split <;> rfl

/-- Every `SAMPLE` of the run finds the channel in the window that the number of steps gives. -/
theorem exists_inWindow (n : Nat) : ∃ q j, modulus k * q + j = stepCount d r x (Channel.resetWith clk) n ∧
    (sampleRun d r x (Channel.resetWith clk) n).InWindow
      (Emits d r x (Channel.resetWith clk)) k q j := by
  generalize hc : Channel.resetWith clk = c
  induction n with
  | zero => exact ⟨0, 0, rfl, hc ▸ Channel.InWindow.reset _ k clk⟩
  | succ n ih =>
    obtain ⟨q, j, hcount, hwin⟩ := ih
    rw [sampleRun_succ]
    cases hs : runSteps d r x c n with
    | false =>
      rw [stepCount_held hs, sampleNext_held hs]
      exact ⟨q, j, hcount, hwin.congr rfl rfl rfl⟩
    | true =>
      obtain ⟨hw, hew⟩ := derive_modulus hk hp2 (d := d) n
      have hemits : Emits d r x c (modulus k * q + j) (runBit d r x c n) := ⟨n, hs, hcount.symm, rfl⟩
      rw [stepCount_stepped hs, ← hcount, sampleNext_stepped hs, afterEnc_stepped hs, hw, hew]
      exact hwin.step hk (fun b' hb' => hb'.unique hemits) rfl rfl fun i hi => encodeStep_qb _ _ _ _ i hi

/-- During the first window the entry replayed is 0. -/
theorem runReplayed_first {n : Nat} (h : stepCount d r x (Channel.resetWith clk) n < modulus k) :
    runReplayed d r x (Channel.resetWith clk) n = .zero := by
  obtain ⟨q, j, hcount, hwin⟩ := exists_inWindow (x := x) (clk := clk) (d := d) hk hp2 n
  have hq : q = 0 := (window_unique (q' := 0) (by rw [hcount, Nat.mul_zero, Nat.zero_add]) hwin.inside h).1
  exact hwin.first hq _ (Fin.isLt _)

/-- From the second window on the entry replayed is the bit that the step at the mirrored place of the window
before has emitted. -/
theorem runReplayed_next {n m p j i : Nat} (hm : runSteps d r x (Channel.resetWith clk) m = true)
    (hn : stepCount d r x (Channel.resetWith clk) n = modulus k * (p + 1) + j)
    (hmc : stepCount d r x (Channel.resetWith clk) m = modulus k * p + i) (hi : i < modulus k)
    (hslot : replaySlot k i = j) : runReplayed d r x (Channel.resetWith clk) n
      = runBit d r x (Channel.resetWith clk) m := by
  obtain ⟨q, j', hcount, hwin⟩ := exists_inWindow (x := x) (clk := clk) (d := d) hk hp2 n
  obtain ⟨rfl, rfl⟩ := window_unique (hcount.trans hn) hwin.inside (hslot ▸ replaySlot_lt hi)
  exact hwin.replayed hi hslot ⟨m, hm, hmc, rfl⟩

/-- Through the first window of steps nothing is added to the output accumulator. -/
theorem dout_first (hr : ∀ i, (r i).Legal) {n : Nat}
    (h : stepCount d r x (Channel.resetWith clk) n ≤ modulus k) :
    (sampleRun d r x (Channel.resetWith clk) n).dout = 0 := by
  induction n with
  | zero => rfl
  | succ n ih =>
    rw [sampleRun_succ]
    cases hs : runSteps d r x (Channel.resetWith clk) n with
    | false =>
      rw [stepCount_held hs] at h
      rw [sampleNext_held hs]; exact ih h
    | true =>
      rw [stepCount_stepped hs] at h
      have hrep := runReplayed_first hk hp2 (show _ < modulus k from h)
      obtain ⟨hds, -⟩ := derive_ds (d n) (hr n)
      rw [sampleNext_dout, afterEnc_stepped hs, encodeStep_dout]
      simp only [ih (by omega)]
      rw [runReplayed] at hrep
      rw [hrep]
      exact clampInt_of_mem (by simp; omega) (by simp; omega)

end FromReset

/-- Settles O40: the accumulator is still 0, and so is the level it gives. -/
theorem wetSignalStartsOneWindowLate : Obligations.WetSignalStartsOneWindowLate := by
  intro d r x clk k n hk hr hcount
  have hdout := dout_first hk (fun i => (hr i).2) (fun i => (hr i).1) (n := n + 1) hcount
  rw [sampleRun_succ, sampleNext_dout] at hdout
  obtain ⟨hds1, hds2⟩ := derive_ds (d n) (hr n).1
  obtain ⟨-, -, -, hlevel⟩ := recLevel_spec hds1 hds2 (dout := 0) (by omega) (by omega) (d n) _
  rw [sampleLevel, hdout]
  exact hlevel rfl

/-- Settles O41: the window before is replayed from where its commit has put it. -/
theorem windowReplaysThePreviousBits : Obligations.WindowReplaysThePreviousBits := by
  intro d r x clk k hk hp2 c ew n hn
  refine ⟨fun h => runReplayed_first hk hp2 h, fun m hm =>
    ⟨fun h0 hcount => ?_, fun q j h0 hj hcount hcount' => ?_⟩⟩
  · subst h0
    have hdm := Nat.div_add_mod (stepCount d r x c m) 8
    have hlt := Nat.mod_lt (stepCount d r x c m) (show 0 < 8 by omega)
    have hnext : stepCount d r x c n = 8 * (stepCount d r x c m / 8 + 1) + stepCount d r x c m % 8 := by omega
    exact runReplayed_next hk hp2 hm hnext hdm.symm hlt rfl
  · have hmod : modulus k = k := if_neg h0
    refine runReplayed_next hk hp2 hm (p := q) (i := k - 1 - j) (hmod.symm ▸ hcount) (hmod.symm ▸ hcount')
      (by omega) ?_
    rw [replaySlot, if_neg h0]; omega

end Sys2Proof.Machine
end

section
/-!
PROOFS. The control operations and where a step stops (rules R85 to R92, R97, R98, R116, U17): what `SETP`, `GETP` and
`SETRATE` answer and store, which operands they refuse, and the refusals of each kind of turn.
-/

namespace Sys2Proof.Machine

/-! ### Where a step stops (rules R58, R97, R98, R116, U17) -/

/-- A turn at the head of the schedule is taken, with only itself taken off. -/
theorem step_turn {s : State} {t : Turn} {rest : List Turn} (h : s.turns = t :: rest) :
    step s = takeTurn t { s with turns := rest } := by simp only [step, h]

/-- With the schedule used up a step does what remains to be done. -/
theorem step_unscheduled {s : State} (h : s.turns = []) : step s = unscheduled s := by simp only [step, h]

/-- The host's issue is refused exactly on a busy port. -/
theorem issue_refused_iff (p : Port) (w : Command) (s : State) :
    (∃ r, issue p w s = .refused r) ↔ (portOf p s).pending ≠ none := by
  cases hp : (portOf p s).pending <;> simp [issue, hp]

/-- Reset is refused exactly with a command outstanding. -/
theorem assertReset_refused_iff (s : State) :
    (∃ r, assertReset s = .refused r) ↔ (s.sport.pending ≠ none ∨ s.cport.pending ≠ none) := by
  constructor
  · rintro ⟨r, h⟩
    by_contra! hfree
    obtain ⟨hs, hc⟩ := hfree
    rw [assertReset_quiet hs hc] at h
    cases h
  · exact fun h => ⟨_, assertReset_busy h⟩

/-- Whether the control port refuses its command does not depend on the draws. -/
theorem serve_control_refused_draws (s : State) (d : Nat) :
    (∃ r, serve .control { s with draws := d } = .refused r) ↔ ∃ r, serve .control s = .refused r := by
  rw [serve_control_refused_iff, serve_control_refused_iff]

/-- With the schedule used up a step is refused exactly when the control port is the one served, and refuses. -/
theorem unscheduled_refused_iff (s : State) : (∃ r, unscheduled s = .refused r) ↔
    ((∃ r, serve .control s = .refused r) ∧ (s.sport.pending = none ∨ Config.freePort s.draws = false)) := by
  cases hc : s.cport.pending with
  | none =>
    have hserve : serve .control s = .next s := serve_idle hc
    simp [unscheduled, hc, hserve, serve_sample_not_refused s]
  | some w =>
    cases hs : s.sport.pending with
    | none => simp [unscheduled, hc, hs]
    | some w' =>
      cases hfree : Config.freePort s.draws with
      | true => simp [unscheduled, hc, hs, hfree, serve_sample_not_refused]
      | false => simp [unscheduled, hc, hs, hfree, serve_control_refused_draws]

/-- Settles O8: each kind of turn, and the empty schedule, is refused as the operation it runs. -/
theorem stepRefusesExactlyWhen : Obligations.StepRefusesExactlyWhen := by
  intro s outside
  refine ⟨(fun f => nomatch f), fun p w rest h => ?_, fun rest h => ?_, fun rest h => ?_,
    fun rest h => ?_, fun h => ?_⟩
  · rw [step_turn h]
    exact (issue_refused_iff p w _).trans (by rw [portOf_turns])
  · rw [step_turn h]
    exact assertReset_refused_iff _
  · rw [step_serve h]
    exact serve_sample_not_refused _
  · rw [step_serve h]
    exact serve_control_refused_iff _
  · rw [step_unscheduled h, unscheduled_refused_iff, serve_control_refused_iff]

/-! ### `SETP` (rules R85 to R88) -/

/-- Settles O19: an unknown index is answered with zero and nothing else is done. -/
theorem setpUnknownIndexIsIgnored : Obligations.SetpUnknownIndexIsIgnored :=
  fun s _ v hidx => ⟨_, exec_setp_unknown hidx v s, respond_control _ _⟩

/-- A NaN, and a value below 0 or above 1, is outside the domain of a parameter (rule R88). -/
theorem inUnit_eq_false {v : F} (h : fIsNaN v = true ∨ fVal v < 0 ∨ fVal v > fVal 0x3F800000#32) :
    inUnit v = false := by
  rw [← Bool.not_eq_true, inUnit_iff, ← fVal_one]
  rintro ⟨hnan, hlo, hhi⟩
  rcases h with h | h | h
  · rw [hnan] at h; cases h
  · omega
  · omega

/-- Settles O20: the value is outside the domain that `SETP` asks for on a slot that exists. -/
theorem setpOutsideDomainIsRefused : Obligations.SetpOutsideDomainIsRefused :=
  fun s idx _ hidx hv => exec_setp_outside (i := ⟨idx.toNat, hidx⟩) rfl (inUnit_eq_false hv) s

/-! ### `GETP` (rules R89, R90) -/

/-- Settles O21: a slot that exists answers its cell, an unknown index zero. -/
theorem getpAnswersTheCell : Obligations.GetpAnswersTheCell := by
  intro s idx
  by_cases hidx : idx.toNat < 4
  · rw [dif_pos hidx]
    exact ⟨_, exec_getp (i := ⟨idx.toNat, hidx⟩) rfl s, respond_control _ _⟩
  · rw [dif_neg hidx]
    exact ⟨_, exec_getp_unknown (Nat.le_of_not_lt hidx) s, respond_control _ _⟩

/-- What `SETP` stores: the nearest `k/32` in slot 2 and the value itself in any other slot (rules R85, R86). -/
theorem storedValue_eq (d : Nat) (i : Fin 4) {v : F} (hv : inUnit v = true) : storedValue d i v
    = if i.val = 2 then windowStep ((64 * fMag v + unit) / (2 * unit)) else v := by
  split
  · next h =>
    obtain rfl : i = 2 := Fin.ext h
    exact storedValue_window d hv
  · next h => exact storedValue_other d (fun e => h (congrArg Fin.val e)) v

/-- Settles O22: `GETP` reads the cell that `SETP` has just written. -/
theorem getpReturnsWhatSetpStored : Obligations.GetpReturnsWhatSetpStored := by
  intro s idx v hidx hv
  obtain ⟨i, hi⟩ : ∃ i : Fin 4, idx.toNat = i.val := ⟨⟨idx.toNat, hidx⟩, rfl⟩
  have hcur : (pWrite i (storedValue s.draws i v) s).params[i].cur
      = if idx.toNat = 2 then windowStep ((64 * fMag v + unit) / (2 * unit)) else v := by
    rw [pWrite_params_self, Cell.write_cur, storedValue_eq _ i hv, hi]
  refine ⟨_, _, exec_setp hi hv s, exec_getp hi _, ?_⟩
  rw [← hcur]
  exact List.append_assoc _ _ _

/-! ### `SETRATE` (rules R91, R92) -/

/-- Settles O23: the state that `exec_setrate` names, field by field. -/
theorem setrateStoresTheRate : Obligations.SetrateStoresTheRate :=
  fun s _ hr => ⟨_, exec_setrate hr s, Cell.write_cur _ _ _, rfl, rfl, rfl, rfl, rfl, rfl⟩

/-- A NaN, an infinity, a zero and a negative value are no rates (rule R92). -/
theorem legalRate_eq_false {r : F} (h : fIsNaN r = true ∨ fIsInf r = true ∨ fVal r ≤ 0) : legalRate r = false := by
  rw [← Bool.not_eq_true, legalRate_iff]
  rintro ⟨hfin, hpos⟩
  rcases h with h | h | h
  · rw [not_isNaN_of_finite hfin] at h; cases h
  · rw [not_isInf_of_finite hfin] at h; cases h
  · omega

/-- Settles O24: the rate is outside the domain that `SETRATE` asks for. -/
theorem setrateOutsideDomainIsRefused : Obligations.SetrateOutsideDomainIsRefused :=
  fun s _ h => exec_setrate_outside (legalRate_eq_false h) s

end Sys2Proof.Machine
end

section
/-!
PROOFS. The host's duties (rules R58, R116, U17): a command on a busy port and a reset with a command outstanding.
-/

namespace Sys2Proof.Machine

/-- The host's issue on a busy port is refused as such. -/
theorem issue_busy {p : Port} {s : State} (w : Command) (h : (portOf p s).pending ≠ none) :
    issue p w s = .refused .portBusy := by
  obtain ⟨w', hw'⟩ := Option.ne_none_iff_exists'.mp h
  simp only [issue, hw']

/-- Settles O13: the turn is taken from a state whose ports hold the same commands. -/
theorem hostDutiesAreRefused : Obligations.HostDutiesAreRefused := by
  refine ⟨fun s rest hturns hbusy => ?_, fun s p w rest hturns hbusy => ?_⟩
  · rw [step_turn hturns]
    exact assertReset_busy hbusy
  · rw [step_turn hturns]
    exact issue_busy w (by rwa [portOf_turns])

end Sys2Proof.Machine
end
